-- ==== Sys2Proof/Word.lean ====
section
/-! DEFINITION. The widths of the block (R4, R5, R24). Element `i` of a word is bit `i` (R15). -/

namespace Sys2Proof

/-- Four information bits `d0..d3`; bit `j` is `dj` (R15). -/
abbrev Nibble := BitVec 4

/-- A 7-bit word: a codeword, a received word or an error pattern (R4, R15). -/
abbrev Word7 := BitVec 7

/-- A syndrome, or an entry of the correction table: 3 bits (R9, R16). -/
abbrev Syn3 := BitVec 3

/-- A 17-bit command word (R24). -/
abbrev Cmd := BitVec 17

end Sys2Proof
end

