-- ==== Sys2Proof/Syntax.lean ====
section
/-! DEFINITION. The four commands of the opcode table (R25), each with every field of its command word, and the abstract
syntax of the assembler (R29, R30). -/

namespace Sys2Proof

/-- The first operand as the command word gives it (R24, R26): `asel = 0` takes field A; `asel = 1` takes RES, and the
word's field A is then ignored, whatever it holds. -/
inductive Source where
  | word (a : Word7)
  | res (ignoredA : Word7)
  deriving DecidableEq, Repr

/-- The four operations (R25). `b` is field B, which only CORRUPT reads (R27); the others carry it because the command
word does (R28, log 5). -/
inductive Instr where
  /-- ENCODE (R38), op 00. -/
  | encode (x : Source) (b : Word7)
  /-- CORRUPT (R39), op 01; `b` is the error pattern. -/
  | corrupt (x : Source) (b : Word7)
  /-- SYNDROME (R40), op 10. -/
  | syndrome (x : Source) (b : Word7)
  /-- DECODE (R41), op 11. -/
  | decode (x : Source) (b : Word7)
  deriving DecidableEq, Repr

/-- An operand as the assembler's user writes it: `#imm` or `RES` (R29). The immediate is a number that may not fit. -/
inductive AsmSource where
  | imm (v : Nat)
  | res
  deriving DecidableEq, Repr

/-- One line of assembler (R29), the three pseudo-instructions included (R30). -/
inductive AsmLine where
  | encode (x : AsmSource)
  | corrupt (x : AsmSource) (e : Nat)
  | syndrome (x : AsmSource)
  | decode (x : AsmSource)
  | load (v : Nat)
  | nop
  | reset
  deriving DecidableEq, Repr

/-- What a line of assembler makes the host do in one step (R29, R30). -/
inductive AsmStep where
  | issue (i : Instr)
  | idle
  | reset
  deriving DecidableEq, Repr

/-- Why the assembler rejects a line (R29). -/
inductive AsmError where
  /-- An immediate that does not fit its field. -/
  | immediateTooWide
  /-- Text that is not a line of R29's grammar or R30's table. -/
  | notALine
  deriving DecidableEq, Repr

end Sys2Proof
end

