-- ==== Sys2Proof/WellFormed.lean ====
section
/-! DEFINITION. The form an assembler gives a command: fields the operation ignores are 0 (R28, R29). The block itself
never asks for it: every command word is legal (R28), decodes, and executes. -/

namespace Sys2Proof

/-- Field A is 0 where `asel = 1` makes it ignored (R26). -/
def Source.wellFormed : Source → Bool
  | .word _ => true
  | .res a => a == 0

/-- For ENCODE, `A[6:4]` is ignored too (R27). -/
def Source.wellFormedNibble : Source → Bool
  | .word a => a.extractLsb' 4 3 == 0
  | .res a => a == 0

/-- Every field the operation ignores is 0 (R28, R29). -/
def Instr.wellFormed : Instr → Bool
  | .encode x b => x.wellFormedNibble && b == 0
  | .corrupt x _ => x.wellFormed
  | .syndrome x b => x.wellFormed && b == 0
  | .decode x b => x.wellFormed && b == 0

/-- The same operand with its ignored bits 0. -/
def Source.canonical : Source → Source
  | .word a => .word a
  | .res _ => .res 0

/-- The same ENCODE operand with its ignored bits 0. -/
def Source.canonicalNibble : Source → Source
  | .word a => .word ((a.extractLsb' 0 4).setWidth 7)
  | .res _ => .res 0

/-- The same command with its ignored fields 0 (R28). -/
def Instr.canonical : Instr → Instr
  | .encode x _ => .encode x.canonicalNibble 0
  | .corrupt x e => .corrupt x.canonical e
  | .syndrome x _ => .syndrome x.canonical 0
  | .decode x _ => .decode x.canonical 0

end Sys2Proof
end

