-- ==== Sys2Proof/Decode.lean ====
section
/-! DEFINITION. The command word (R24), the opcode table (R25), the decoder and the encoder. -/

namespace Sys2Proof

/-- `cmd[1:0]` (R24). -/
def Cmd.op (w : Cmd) : BitVec 2 := w.extractLsb' 0 2

/-- `cmd[2]` (R24). -/
def Cmd.asel (w : Cmd) : Bool := w.getLsbD 2

/-- `cmd[9:3]` (R24). -/
def Cmd.a (w : Cmd) : Word7 := w.extractLsb' 3 7

/-- `cmd[16:10]` (R24). -/
def Cmd.b (w : Cmd) : Word7 := w.extractLsb' 10 7

/-- The first operand's source, from `asel` and A (R26). -/
def Cmd.source (w : Cmd) : Source := if Cmd.asel w then .res (Cmd.a w) else .word (Cmd.a w)

/-- The instruction a command word is; total, since all 2^17 words are legal (R25, R28). -/
def decode (w : Cmd) : Instr :=
  if Cmd.op w = 0b00#2 then .encode (Cmd.source w) (Cmd.b w)
  else if Cmd.op w = 0b01#2 then .corrupt (Cmd.source w) (Cmd.b w)
  else if Cmd.op w = 0b10#2 then .syndrome (Cmd.source w) (Cmd.b w)
  else .decode (Cmd.source w) (Cmd.b w)

/-- Why a number is no command word. -/
inductive DecodeError where
  /-- It needs more than 17 bits; the command word has one length (R24; log 5). -/
  | widerThan17Bits
  deriving DecidableEq, Repr

/-- The decoder on any number: a command word is 17 bits and nothing else (R24). -/
def decodeWord (n : Nat) : Except DecodeError Instr :=
  if n < 2 ^ 17 then .ok (decode (BitVec.ofNat 17 n)) else .error .widerThan17Bits

/-- `cmd = (B, A, asel, op)`, B in the high bits (R24). -/
def packCmd (b a : Word7) (asel : Bool) (op : BitVec 2) : Cmd := b ++ a ++ BitVec.ofBool asel ++ op

/-- The `asel` bit of a source (R26). -/
def Source.asel : Source → Bool
  | .word _ => false
  | .res _ => true

/-- The bits of field A of a source (R26). -/
def Source.field : Source → Word7
  | .word a => a
  | .res a => a

/-- The operation number (R25). -/
def Instr.op : Instr → BitVec 2
  | .encode _ _ => 0b00#2
  | .corrupt _ _ => 0b01#2
  | .syndrome _ _ => 0b10#2
  | .decode _ _ => 0b11#2

/-- The first operand's source. -/
def Instr.source : Instr → Source
  | .encode x _ => x
  | .corrupt x _ => x
  | .syndrome x _ => x
  | .decode x _ => x

/-- Field B. -/
def Instr.fieldB : Instr → Word7
  | .encode _ b => b
  | .corrupt _ b => b
  | .syndrome _ b => b
  | .decode _ b => b

/-- The command word of an instruction (R24, R25). -/
def encode (i : Instr) : Cmd := packCmd i.fieldB i.source.field i.source.asel i.op

/-- The operation's name in the opcode table (R25). -/
def Instr.mnemonic : Instr → String
  | .encode _ _ => "ENCODE"
  | .corrupt _ _ => "CORRUPT"
  | .syndrome _ _ => "SYNDROME"
  | .decode _ _ => "DECODE"

/-- One row of spec/opcode_table.json: its name and the word's bits that select it. -/
structure OpcodeRow where
  mnemonic : String
  mask : Cmd
  value : Cmd
  deriving DecidableEq, Repr

/-- spec/opcode_table.json, row by row: `mnemonic`, `mask`, `match`. -/
def opcodeTable : List OpcodeRow :=
  [⟨"ENCODE", 0x00003#17, 0x00000#17⟩,
   ⟨"CORRUPT", 0x00003#17, 0x00001#17⟩,
   ⟨"SYNDROME", 0x00003#17, 0x00002#17⟩,
   ⟨"DECODE", 0x00003#17, 0x00003#17⟩]

/-- The word is one of the row's. -/
def OpcodeRow.selects (r : OpcodeRow) (w : Cmd) : Bool := w &&& r.mask == r.value

/-- Host form: the instruction read from the `nbits`-bit word `w`, the bits above `nbits` being 0 (log 5). -/
def decodeTableWord (nbits w : Nat) : Option Instr :=
  match decodeWord (w % 2 ^ nbits) with
  | .ok i => some i
  | .error _ => none

end Sys2Proof
end

