-- ==== Sys2Proof/Machine/Codec.lean ====
section
/-! DEFINITION. The four functions of the source and the correction table (R31 to R36), and the spec's notation
`popcount`, `parity` (00_scope.md §4, R32). -/

namespace Sys2Proof.Machine

/-- The number of 1 bits (00_scope.md §4). -/
def popcount {w : Nat} (v : BitVec w) : Nat := ((List.range w).filter v.getLsbD).length

/-- `popcount(v) mod 2` (R32). -/
def parity {w : Nat} (v : BitVec w) : Bool := popcount v % 2 == 1

/-- `Encode` (R32): the information bits in positions 0 to 3, `p0 p1 p2` in positions 4 to 6 (R31). -/
def Codec.encode (d : Nibble) : Word7 :=
  let p0 := d[0] ^^ d[1] ^^ d[2]
  let p1 := d[0] ^^ d[1] ^^ d[3]
  let p2 := d[0] ^^ d[2] ^^ d[3]
  BitVec.ofBool p2 ++ BitVec.ofBool p1 ++ BitVec.ofBool p0 ++ d

/-- `Corrupt` (R33). -/
def Codec.corrupt (c e : Word7) : Word7 := c ^^^ e

/-- `Syndrome` (R34): bit `j` is `sj`. -/
def Codec.syndrome (r : Word7) : Syn3 :=
  let s0 := r[0] ^^ r[1] ^^ r[2] ^^ r[4]
  let s1 := r[0] ^^ r[1] ^^ r[3] ^^ r[5]
  let s2 := r[0] ^^ r[2] ^^ r[3] ^^ r[6]
  BitVec.ofBool s2 ++ BitVec.ofBool s1 ++ BitVec.ofBool s0

/-- The contents of the correction table, entry 0 first (R16, R35): `k` is "flip bit k", 7 is "no flip". -/
def Codec.corrRom : Vector Syn3 8 := #v[7, 4, 5, 1, 6, 2, 3, 0]

/-- `CorrTable(s)` (R35): every index holds an entry (R16). -/
def Codec.corrTable (s : Syn3) : Syn3 := Codec.corrRom[s.toNat]'s.isLt

/-- `FlipMask(k)` (R35). -/
def Codec.flipMask (k : Syn3) : Word7 := if k = 7 then 0b0000000#7 else 1#7 <<< k.toNat

/-- `Decode` (R36): flips the bit the table names for the syndrome, or nothing. -/
def Codec.decode (r : Word7) : Word7 := r ^^^ Codec.flipMask (Codec.corrTable (Codec.syndrome r))

end Sys2Proof.Machine
end

