-- ==== Sys2Proof/Config.lean ====
section
/-! DEFINITION. What the spec leaves open: only the register values before the first reset step (R58). The block has no
parameter (R5). -/

namespace Sys2Proof

/-- RES at the `k`-th power-up, before any reset step: any value (R58; log 4). No body: nothing can evaluate it. -/
opaque Config.powerUpRes : Nat → Word7

/-- SYN at the `k`-th power-up, before any reset step: any value (R58; log 4). -/
opaque Config.powerUpSyn : Nat → Syn3

end Sys2Proof
end

