-- ==== Sys2Proof/Machine/State.lean ====
section
/-! DEFINITION. The state of one H74 instance (R7), the host's inputs (R23), the reasons a step stops, and the launch
states (R14, R58, R64). -/

namespace Sys2Proof.Machine

/-- The level of one input line at a step: two-valued, or undriven, unknown or metastable (R23, R63). -/
inductive Level where
  | zero
  | one
  | unknown
  deriving DecidableEq, Repr

/-- What the host presents at one step (R23): `rst`, `issue`, and the 17 lines of `cmd`, line `i` at index `i`. -/
structure StepInput where
  rst : Level
  issue : Level
  cmd : Vector Level 17
  deriving DecidableEq, Repr

/-- The two registers of the block (R7) and the steps the host is still to drive, oldest first (R64; the model's own
field, log 1). -/
structure State where
  /-- RES, the last 7-bit result (R8). -/
  res : Word7
  /-- SYN, the last syndrome computed (R9). -/
  syn : Syn3
  /-- The host's coming steps (R23, R64). -/
  inputs : List StepInput
  deriving DecidableEq, Repr

/-- Reasons the block itself stops: none. No command raises an exception (R48) and there is no trap (R52), so the type
has no constructor (log 8). -/
inductive Fault where
  deriving DecidableEq, Repr

/-- Reasons the model gives a step no meaning. -/
inductive Refusal where
  /-- An arm of `exec` without a meaning; no arm of this model raises it. Safe. -/
  | notModelled (mnemonic : String)
  /-- Raised by `step`: a bit of the step's `rst`, `issue` or `cmd` is undriven or unknown (R63). Safe. -/
  | unknownInput
  /-- Raised by `step`: the host drives no further step, and such a step does not exist (R64; log 2). Safe. -/
  | noStepDriven
  /-- Raised by `Bank.step`: there is no instance of that number (R22; log 9). Safe. -/
  | noSuchInstance
  deriving DecidableEq, Repr

/-- After reset: RES 0x00 and SYN 000 (R14, R55), and no step presented (log 1). -/
def State.reset : State := { res := 0x00#7, syn := 0b000#3, inputs := [] }

/-- Before the first reset step: RES and SYN are free values, one draw for each power-up `k` (R58; log 4). -/
def State.powerUp (k : Nat) (inputs : List StepInput) : State :=
  { res := Config.powerUpRes k, syn := Config.powerUpSyn k, inputs := inputs }

end Sys2Proof.Machine
end

