-- ==== Sys2Proof/Machine/Operands.lean ====
section
/-! DEFINITION. Operand assembly (R26, R27). -/

namespace Sys2Proof.Machine

/-- The first operand `X` (R26): RES as it was before the step, or field A. -/
def operandX (x : Source) (s : State) : Word7 :=
  match x with
  | .word a => a
  | .res _ => s.res

/-- ENCODE's data `D = X[3:0]` (R27). -/
def operandD (x : Source) (s : State) : Nibble := (operandX x s).extractLsb' 0 4

end Sys2Proof.Machine
end

