-- ==== Sys2Proof/Machine/Ops.lean ====
section
/-! DEFINITION. The writes of the registers (R18, R59), the reset of the registers (R55), and the host's inputs: driving
them and sampling them (R23, R63). -/

namespace Sys2Proof.Machine

/-- `RES <- v` (R8). -/
def State.writeRes (s : State) (v : Word7) : State := { s with res := v }

/-- `SYN <- v` (R9). -/
def State.writeSyn (s : State) (v : Syn3) : State := { s with syn := v }

/-- RES and SYN written together at the end of the step (R18, R41). -/
def State.writeBoth (s : State) (r : Word7) (y : Syn3) : State := { s with res := r, syn := y }

/-- `Reset()` (R37, R55): both registers to their reset values (R14), and no other effect. -/
def State.resetRegs (s : State) : State := s.writeBoth State.reset.res State.reset.syn

/-- A driven line (R23). -/
def Level.ofBool : Bool → Level
  | false => .zero
  | true => .one

/-- The value of a line, if it has one (R63). -/
def Level.value? : Level → Option Bool
  | .zero => some false
  | .one => some true
  | .unknown => none

/-- `n` driven lines holding the number `m`, line 0 its least significant bit (R15). -/
def linesOf : Nat → Nat → List Level
  | 0, _ => []
  | n + 1, m => Level.ofBool (m % 2 == 1) :: linesOf n (m / 2)

theorem linesOf_length (n m : Nat) : (linesOf n m).length = n := by
  induction n generalizing m with
  | zero => rfl
  | succ n ih => simp [linesOf, ih]

/-- The number on a list of lines, line 0 its least significant bit; none if any line is unknown (R63). -/
def linesValue? : List Level → Option Nat
  | [] => some 0
  | l :: ls =>
    match l.value?, linesValue? ls with
    | some b, some n => some (b.toNat + 2 * n)
    | _, _ => none

/-- The 17 lines of a driven command word (R23, R24). -/
def driveCmd (w : Cmd) : Vector Level 17 := ⟨(linesOf 17 w.toNat).toArray, by simp [linesOf_length]⟩

/-- The word on the 17 lines of `cmd`, if all are driven (R63). -/
def sampleCmd (v : Vector Level 17) : Option Cmd := (linesValue? v.toList).map (BitVec.ofNat 17)

/-- A step input all of whose bits are driven (R23). -/
def StepInput.driven (rst issue : Bool) (cmd : Cmd) : StepInput :=
  { rst := .ofBool rst, issue := .ofBool issue, cmd := driveCmd cmd }

/-- A command step: `rst = 0`, `issue = 1` (R23). -/
def StepInput.command (w : Cmd) : StepInput := .driven false true w

/-- The two-valued inputs of a step (R23). -/
structure Sampled where
  rst : Bool
  issue : Bool
  cmd : Cmd
  deriving DecidableEq, Repr

/-- Sampling a step's inputs once (R23): none if any bit of `rst`, `issue` or `cmd` has no value, the bits a step would
ignore included (R63; log 3). -/
def StepInput.sample (i : StepInput) : Option Sampled :=
  match i.rst.value?, i.issue.value?, sampleCmd i.cmd with
  | some r, some e, some w => some ⟨r, e, w⟩
  | _, _, _ => none

end Sys2Proof.Machine
end

