-- ==== Sys2Proof/Machine/Receive.lean ====
section
/-! DEFINITION. The meanings of SYNDROME (R40) and DECODE (R41). -/

namespace Sys2Proof.Machine

/-- SYNDROME (R40): `SYN <- Syndrome(X)`; field B is ignored (R27). -/
def execSyndrome (x : Source) (_b : Word7) (s : State) : Host.Outcome State Fault Refusal :=
  .next (s.writeSyn (Codec.syndrome (operandX x s)))

/-- DECODE (R41): `SYN <- Syndrome(X)` and `RES <- Decode(X)`, together; field B is ignored (R27). -/
def execDecode (x : Source) (_b : Word7) (s : State) : Host.Outcome State Fault Refusal :=
  .next (s.writeBoth (Codec.decode (operandX x s)) (Codec.syndrome (operandX x s)))

end Sys2Proof.Machine
end

