-- ==== Sys2Proof/Machine/Transmit.lean ====
section
/-! DEFINITION. The meanings of ENCODE (R38) and CORRUPT (R39). -/

namespace Sys2Proof.Machine

/-- ENCODE (R38): `RES <- Encode(X[3:0])`; field B is ignored (R27). -/
def execEncode (x : Source) (_b : Word7) (s : State) : Host.Outcome State Fault Refusal :=
  .next (s.writeRes (Codec.encode (operandD x s)))

/-- CORRUPT (R39): `RES <- Corrupt(X, B)`. -/
def execCorrupt (x : Source) (b : Word7) (s : State) : Host.Outcome State Fault Refusal :=
  .next (s.writeRes (Codec.corrupt (operandX x s) b))

end Sys2Proof.Machine
end

