-- ==== Sys2Proof/Machine/Dispatch.lean ====
section
/-! DEFINITION. One arm per operation (R25, R37). -/

namespace Sys2Proof.Machine

def exec (i : Instr) (s : State) : Host.Outcome State Fault Refusal :=
  match i with
  | .encode x b => Sys2Proof.Machine.execEncode x b s
  | .corrupt x b => Sys2Proof.Machine.execCorrupt x b s
  | .syndrome x b => Sys2Proof.Machine.execSyndrome x b s
  | .decode x b => Sys2Proof.Machine.execDecode x b s

end Sys2Proof.Machine
end

