-- ==== Sys2Proof/Machine/Sequence.lean ====
section
/-! DEFINITION. The host's list of coming steps: taking the next one, and placing a command before them (R64; log 1). -/

namespace Sys2Proof.Machine

/-- The state with the host's first step taken off its list. -/
def State.taken (s : State) : State := { s with inputs := s.inputs.tail }

/-- The state whose very next step presents the command word `w`. -/
def State.present (s : State) (w : Cmd) : State := { s with inputs := .command w :: s.inputs }

end Sys2Proof.Machine
end

