-- ==== Sys2Proof/Machine/Step.lean ====
section
/-! DEFINITION. One step of the block (R37). -/

namespace Sys2Proof.Machine

/-- One step (R37) on the inputs the host presents next: a reset step (R55, R56), an idle step (R57) or a command. A step
with an unknown input bit is refused (R63), and so is one the host does not drive (R64). -/
def step (s : State) : Host.Outcome State Fault Refusal :=
  match s.inputs with
  | [] => .refused .noStepDriven
  | i :: _ =>
    match i.sample with
    | none => .refused .unknownInput
    | some x =>
      if x.rst then .next s.taken.resetRegs
      else if x.issue then exec (decode x.cmd) s.taken
      else .next s.taken

/-- Host form: the very next step presents the command word `w` of `nbits` bits (log 1). -/
def State.withFetchWord (s : State) (nbits w : Nat) : State :=
  s.present (BitVec.ofNat 17 (w % 2 ^ nbits))

end Sys2Proof.Machine
end

