-- ==== Sys2Proof/Machine/Assembler.lean ====
section
/-! DEFINITION. The assembler (R29) and its pseudo-instructions (R30), on abstract lines and on text. What R29 does not
fix of the text (blanks, letter case, empty lines) is log 6. -/

namespace Sys2Proof.Machine

/-- A 7-bit immediate; a number that does not fit is rejected (R29). -/
def asmImm7 (v : Nat) : Except AsmError Word7 :=
  if v ≤ 0x7F then .ok (BitVec.ofNat 7 v) else .error .immediateTooWide

/-- A 4-bit immediate, zero-extended into field A (R29). -/
def asmImm4 (v : Nat) : Except AsmError Word7 :=
  if v ≤ 0xF then .ok (BitVec.ofNat 7 v) else .error .immediateTooWide

/-- `<src7>` (R29). -/
def asmSrc7 : AsmSource → Except AsmError Source
  | .imm v => (asmImm7 v).map .word
  | .res => .ok (.res 0)

/-- `<src4>` (R29). -/
def asmSrc4 : AsmSource → Except AsmError Source
  | .imm v => (asmImm4 v).map .word
  | .res => .ok (.res 0)

/-- CORRUPT's line: both operands must fit (R29). -/
def asmCorrupt (x : AsmSource) (e : Nat) : Except AsmError AsmStep :=
  match asmSrc7 x, asmImm7 e with
  | .ok x, .ok e => .ok (.issue (.corrupt x e))
  | .error r, _ => .error r
  | _, .error r => .error r

/-- One line to one host step: ignored fields are 0 (R29), pseudo-instructions are expanded (R30). -/
def assemble : AsmLine → Except AsmError AsmStep
  | .encode x => (asmSrc4 x).map fun x => .issue (.encode x 0)
  | .corrupt x e => asmCorrupt x e
  | .syndrome x => (asmSrc7 x).map fun x => .issue (.syndrome x 0)
  | .decode x => (asmSrc7 x).map fun x => .issue (.decode x 0)
  | .load v => asmCorrupt (.imm v) 0x00
  | .nop => .ok .idle
  | .reset => .ok .reset

/-- The inputs the host presents for an assembled step (R30); where `cmd` is ignored it is driven to 0 (log 6). -/
def AsmStep.input : AsmStep → StepInput
  | .issue i => .command (encode i)
  | .idle => .driven false false 0
  | .reset => .driven true false 0

/-- A stretch of digits in code order: its first character, how many there are, and the value of the first. -/
structure DigitRun where
  start : Char
  count : Nat
  base : Nat
  deriving DecidableEq, Repr

/-- The digits of R29's literals: ten decimal ones, and six letters in capitals (as in R29's `#0x4D`) or small (log 6). -/
def digitRuns : List DigitRun := [⟨'0', 10, 0⟩, ⟨'A', 6, 10⟩, ⟨'a', 6, 10⟩]

/-- The value of a character in one stretch, if it lies in it. -/
def DigitRun.valueOf? (r : DigitRun) (c : Char) : Option Nat :=
  let past := c.toNat - r.start.toNat
  if r.start.toNat ≤ c.toNat ∧ past < r.count then some (r.base + past) else none

/-- The value of a digit of a literal (R29). -/
def literalDigit? (c : Char) : Option Nat := digitRuns.findSome? (·.valueOf? c)

/-- Digits to a number, the first digit the most significant: `acc` is the value of the digits before. -/
def digitsFrom? (base : Nat) (acc : Nat) : List Char → Option Nat
  | [] => some acc
  | c :: cs =>
    match literalDigit? c with
    | some d => if d < base then digitsFrom? base (acc * base + d) cs else none
    | none => none

/-- An immediate: `#0x` and hexadecimal digits, or `#0b` and binary digits (R29). -/
def parseImm? : List Char → Option Nat
  | '#' :: '0' :: 'x' :: c :: cs => digitsFrom? 16 0 (c :: cs)
  | '#' :: '0' :: 'b' :: c :: cs => digitsFrom? 2 0 (c :: cs)
  | _ => none

/-- `<src>`: an immediate or `RES` (R29). -/
def parseSource? (cs : List Char) : Option AsmSource :=
  if cs = ['R', 'E', 'S'] then some .res else (parseImm? cs).map .imm

/-- A blank between the parts of a line (log 6). -/
def isBlank (c : Char) : Bool := c == ' ' || c == '\t'

/-- The text without the blanks at its two ends. -/
def trimBlanks (cs : List Char) : List Char :=
  ((cs.dropWhile isBlank).reverse.dropWhile isBlank).reverse

/-- The pieces of a text between the separators `c`. -/
def splitAtEach (c : Char) : List Char → List (List Char)
  | [] => [[]]
  | x :: xs =>
    if x = c then [] :: splitAtEach c xs
    else
      match splitAtEach c xs with
      | [] => [[x]]
      | p :: ps => (x :: p) :: ps

/-- A line's mnemonic and operands to an abstract line (R29, R30). -/
def parseParts? (name : List Char) (operands : List (List Char)) : Option AsmLine :=
  match operands with
  | [] =>
    if name = ['N', 'O', 'P'] then some .nop
    else if name = ['R', 'E', 'S', 'E', 'T'] then some .reset
    else none
  | [p] =>
    if name = ['E', 'N', 'C', 'O', 'D', 'E'] then (parseSource? p).map .encode
    else if name = ['S', 'Y', 'N', 'D', 'R', 'O', 'M', 'E'] then (parseSource? p).map .syndrome
    else if name = ['D', 'E', 'C', 'O', 'D', 'E'] then (parseSource? p).map .decode
    else if name = ['L', 'O', 'A', 'D'] then (parseImm? p).map .load
    else none
  | [p, q] =>
    if name = ['C', 'O', 'R', 'R', 'U', 'P', 'T'] then
      match parseSource? p, parseImm? q with
      | some x, some e => some (.corrupt x e)
      | _, _ => none
    else none
  | _ => none

/-- One line of text (R29): a comment starts at `;`; a line with nothing before it holds no command (log 6). -/
def parseLine (line : List Char) : Except AsmError (Option AsmLine) :=
  match trimBlanks (line.takeWhile (· ≠ ';')) with
  | [] => .ok none
  | body =>
    let rest := trimBlanks (body.dropWhile (! isBlank ·))
    let operands := if rest = [] then [] else (splitAtEach ',' rest).map trimBlanks
    match parseParts? (body.takeWhile (! isBlank ·)) operands with
    | some l => .ok (some l)
    | none => .error .notALine

/-- A list of lines to the steps the host drives, one command a line (R29), stopping at the first line rejected. -/
def assembleLines : List (List Char) → Except AsmError (List StepInput)
  | [] => .ok []
  | l :: ls =>
    match parseLine l, assembleLines ls with
    | .error r, _ => .error r
    | .ok none, rest => rest
    | .ok (some a), rest =>
      match assemble a, rest with
      | .error r, _ => .error r
      | .ok _, .error r => .error r
      | .ok x, .ok xs => .ok (AsmStep.input x :: xs)

/-- A whole text, line by line. -/
def assembleText (text : List Char) : Except AsmError (List StepInput) :=
  assembleLines (splitAtEach '\n' text)

end Sys2Proof.Machine
end

