-- ==== Sys2Proof/Machine/Instances.lean ====
section
/-! DEFINITION. Several instances side by side (R22): a list of states, any one of which takes the next step (log 9). -/

namespace Sys2Proof.Machine

/-- Instance `k` of the bank takes one step; the others are left alone (R22). -/
def Bank.step (k : Nat) (bank : List State) : Host.Outcome (List State) Fault Refusal :=
  match bank[k]? with
  | none => .refused .noSuchInstance
  | some s =>
    match Machine.step s with
    | .next t => .next (bank.set k t)
    | .fault f => .fault f
    | .refused r => .refused r

end Sys2Proof.Machine
end

