-- ==== Sys2Proof/Machine/Registers.lean ====
section
/-! DEFINITION. R37's step as a function of the two registers alone, written from the pseudocode of R37 to R41 without the
decoder, the meanings or the host's list: what a run is held against (R20, R64). -/

namespace Sys2Proof.Machine

/-- RES and SYN (R7). -/
structure Registers where
  res : Word7
  syn : Syn3
  deriving DecidableEq, Repr

/-- The registers after one command word (R37 to R41). -/
def Registers.afterCommand (q : Registers) (cmd : Cmd) : Registers :=
  let x := if cmd.getLsbD 2 then q.res else cmd.extractLsb' 3 7
  let b : Word7 := cmd.extractLsb' 10 7
  match cmd.getLsbD 1, cmd.getLsbD 0 with
  | false, false => { q with res := Codec.encode (x.extractLsb' 0 4) }
  | false, true => { q with res := Codec.corrupt x b }
  | true, false => { q with syn := Codec.syndrome x }
  | true, true => { res := Codec.decode x, syn := Codec.syndrome x }

/-- The registers after one step on sampled inputs (R37): reset, then idle, then the command. -/
def Registers.afterStep (q : Registers) (x : Sampled) : Registers :=
  match x.rst, x.issue with
  | true, _ => { res := 0x00#7, syn := 0b000#3 }
  | false, false => q
  | false, true => q.afterCommand x.cmd

end Sys2Proof.Machine
end

