-- ==== Sys2Proof/Machine/Flags.lean ====
section
/-! DEFINITION. The derived outputs (R10 to R12) and all that the host reads between steps (R19, R61). -/

namespace Sys2Proof.Machine

/-- `LOC = CorrTable(SYN)` (R10). -/
def State.loc (s : State) : Syn3 := Codec.corrTable s.syn

/-- `ERR = (SYN != 0)` (R11). -/
def State.err (s : State) : Bool := s.syn != 0

/-- `DOUT = RES[3:0]` (R12). -/
def State.dout (s : State) : Nibble := s.res.extractLsb' 0 4

/-- The five outputs (R23). -/
structure Outputs where
  res : Word7
  syn : Syn3
  loc : Syn3
  err : Bool
  dout : Nibble
  deriving DecidableEq, Repr

/-- The outputs between steps: functions of the registers, and reading them changes nothing (R19, R61). -/
def State.outputs (s : State) : Outputs :=
  { res := s.res, syn := s.syn, loc := s.loc, err := s.err, dout := s.dout }

end Sys2Proof.Machine
end

