-- ==== Sys2Proof/Safety.lean ====
section
/-! DEFINITION. Runs (R64), the states whose coming steps are all two-valued (R63), and the programs whose result does not
depend on the power-up values (R58). -/

namespace Sys2Proof.Machine

/-- `k` steps, stopping at the first refusal (R64). -/
def run : Nat → State → Host.Outcome State Fault Refusal
  | 0, s => .next s
  | k + 1, s =>
    match step s with
    | .next t => run k t
    | .fault f => .fault f
    | .refused r => .refused r

/-- A line is driven (R63). -/
def Level.Known (l : Level) : Prop := l ≠ .unknown

/-- Every bit of the step's inputs is driven (R63). -/
def StepInput.Known (i : StepInput) : Prop := i.rst.Known ∧ i.issue.Known ∧ ∀ l ∈ i.cmd.toList, l.Known

/-- The invariant of a safe run: every step the host is still to drive is two-valued, as R65 makes the host's duty. -/
def State.Driven (s : State) : Prop := ∀ i ∈ s.inputs, i.Known

/-- A safe run: all the steps the host drives have a meaning, and none is left. -/
def SafeRun (s : State) : Prop := ∃ t, run s.inputs.length s = .next t ∧ t.inputs = []

/-- The command reads RES (R26). -/
def readsRes (i : Instr) : Bool := i.source.asel

/-- The command writes RES (R7). -/
def writesRes : Instr → Bool
  | .encode _ _ => true
  | .corrupt _ _ => true
  | .syndrome _ _ => false
  | .decode _ _ => true

/-- The command writes SYN (R7). -/
def writesSyn : Instr → Bool
  | .encode _ _ => false
  | .corrupt _ _ => false
  | .syndrome _ _ => true
  | .decode _ _ => true

/-- The step executes a command with the property `p` (R37). -/
def Sampled.commands (p : Instr → Bool) (x : Sampled) : Bool := !x.rst && x.issue && p (decode x.cmd)

/-- The step gives RES a value (R7): a reset or a command that writes it. -/
def StepInput.setsRes (i : StepInput) : Bool := i.sample.any fun x => x.rst || x.commands writesRes

/-- The step gives SYN a value (R7): a reset or a command that writes it. -/
def StepInput.setsSyn (i : StepInput) : Bool := i.sample.any fun x => x.rst || x.commands writesSyn

/-- The step reads RES (R26). -/
def StepInput.usesRes (i : StepInput) : Bool := i.sample.any (Sampled.commands readsRes)

/-- The program gives RES a value before any read of it (R58). -/
def setsResFirst : List StepInput → Bool
  | [] => true
  | i :: rest => !i.usesRes && (i.setsRes || setsResFirst rest)

end Sys2Proof.Machine
end

