-- ==== Sys2Proof/Certificates/Slice0/Obligations.lean ====
section
/-! DEFINITION. The statements for the provers, each naming the rules of spec/ it formalises. -/

open Sys2Proof Sys2Proof.Machine

/-! ### Reset, idle steps, the step itself -/

/-- R14. The reset values of the registers and views, and: the reset state is the state after `DECODE #0x00` from any
state (the host's coming steps, which are not the block's, apart). -/
def Obligations.ResetStateIsDecodeOfZero : Prop :=
  State.reset.res = 0x00#7 ∧ State.reset.syn = 0b000#3 ∧ State.reset.loc = 7 ∧ State.reset.err = false ∧
  State.reset.dout = 0x0#4 ∧ State.reset.res = Codec.encode 0 ∧ State.reset.syn = Codec.syndrome State.reset.res ∧
  ∀ (s : State) (b : Word7), exec (.decode (.word 0x00#7) b) s = .next { State.reset with inputs := s.inputs }

/-- R55. A reset step writes both registers and does nothing else, whatever the state, `issue` and `cmd`. -/
def Obligations.ResetStepClearsRegisters : Prop :=
  ∀ (r : Word7) (y : Syn3) (rest : List StepInput) (issue : Bool) (cmd : Cmd),
    ∃ t, step ⟨r, y, .driven true issue cmd :: rest⟩ = .next t ∧ t.res = 0x00#7 ∧ t.syn = 0b000#3 ∧
      t.loc = 7 ∧ t.err = false ∧ t.dout = 0x0#4 ∧ t.inputs = rest

/-- R56. A reset step that also issues a command is a reset step that issues none: the command has no effect. -/
def Obligations.ResetDiscardsTheCommand : Prop :=
  ∀ (r : Word7) (y : Syn3) (rest : List StepInput) (cmd other : Cmd),
    step ⟨r, y, .driven true true cmd :: rest⟩ = step ⟨r, y, .driven true false other :: rest⟩ ∧
    step ⟨r, y, .driven true true cmd :: rest⟩ = .next ⟨0x00#7, 0b000#3, rest⟩

/-- R57. An idle step changes no register and no view, whichever of its 2^17 values `cmd` has (an undriven line falls under
R63); NOP is such a step. -/
def Obligations.IdleStepChangesNothing : Prop :=
  (∀ (r : Word7) (y : Syn3) (rest : List StepInput) (cmd : Cmd),
    ∃ t, step ⟨r, y, .driven false false cmd :: rest⟩ = .next t ∧ t.res = r ∧ t.syn = y ∧ t.inputs = rest ∧
      t.loc = (State.mk r y rest).loc ∧ t.err = (State.mk r y rest).err ∧ t.dout = (State.mk r y rest).dout) ∧
  ∃ a cmd, assemble .nop = .ok a ∧ AsmStep.input a = .driven false false cmd

/-- R37. The whole of the step dispatch, the four operations written out from their pseudocode. -/
def Obligations.StepDispatchesAsSpecified : Prop :=
  ∀ (r : Word7) (y : Syn3) (rest : List StepInput) (rst issue : Bool) (cmd : Cmd) (x b : Word7),
    x = (if cmd.getLsbD 2 then r else cmd.extractLsb' 3 7) → b = cmd.extractLsb' 10 7 →
    (rst = true → step ⟨r, y, .driven rst issue cmd :: rest⟩ = .next ⟨0x00#7, 0b000#3, rest⟩) ∧
    (rst = false → issue = false → step ⟨r, y, .driven rst issue cmd :: rest⟩ = .next ⟨r, y, rest⟩) ∧
    (rst = false → issue = true →
      (cmd.extractLsb' 0 2 = 0b00#2 ∧
        step ⟨r, y, .driven rst issue cmd :: rest⟩ = .next ⟨Codec.encode (x.extractLsb' 0 4), y, rest⟩) ∨
      (cmd.extractLsb' 0 2 = 0b01#2 ∧ step ⟨r, y, .driven rst issue cmd :: rest⟩ = .next ⟨x ^^^ b, y, rest⟩) ∨
      (cmd.extractLsb' 0 2 = 0b10#2 ∧
        step ⟨r, y, .driven rst issue cmd :: rest⟩ = .next ⟨r, Codec.syndrome x, rest⟩) ∨
      (cmd.extractLsb' 0 2 = 0b11#2 ∧
        step ⟨r, y, .driven rst issue cmd :: rest⟩ =
          .next ⟨x ^^^ Codec.flipMask (Codec.corrTable (Codec.syndrome x)), Codec.syndrome x, rest⟩))

/-- R37, R23. On inputs sampled as `rst = 0`, `issue = 1`, a step is `exec` of the decoded command word, on the state with
that step taken off the host's list; and so for the host's way of placing a word, which is the model's choice (log 1,
log 5). -/
def Obligations.StepRunsTheDecodedCommand : Prop :=
  (∀ (r : Word7) (y : Syn3) (i : StepInput) (rest : List StepInput) (w : Cmd),
    i.sample = some ⟨false, true, w⟩ → step ⟨r, y, i :: rest⟩ = exec (Sys2Proof.decode w) ⟨r, y, rest⟩) ∧
  (∀ (w : Cmd), (StepInput.command w).sample = some ⟨false, true, w⟩) ∧
  (∀ (s : State) (nbits n : Nat) (i : Instr),
    decodeTableWord nbits n = some i → step (s.withFetchWord nbits n) = exec i s)

/-- R63, read as log 3 reads it. A step is refused if a bit of its `rst`, `issue` or `cmd` is undriven or unknown; that a bit
the step would ignore counts too is the model's reading of R63 against R23, R55 and R57 (log 3, DEDUCED). Otherwise it answers
a next state, by R28 and R48. -/
def Obligations.UnknownInputsAreRefused : Prop :=
  ∀ (r : Word7) (y : Syn3) (i : StepInput) (rest : List StepInput),
    ((i.rst = .unknown ∨ i.issue = .unknown ∨ ∃ k : Fin 17, i.cmd[k] = .unknown) →
      step ⟨r, y, i :: rest⟩ = .refused .unknownInput) ∧
    ((i.rst ≠ .unknown ∧ i.issue ≠ .unknown ∧ ∀ k : Fin 17, i.cmd[k] ≠ .unknown) →
      ∃ t, step ⟨r, y, i :: rest⟩ = .next t)

/-- The model's choice (log 2), from R64: the model refuses a step the host does not drive. -/
def Obligations.UndrivenStepIsRefused : Prop :=
  ∀ (r : Word7) (y : Syn3), step ⟨r, y, []⟩ = .refused .noStepDriven

/-! ### The code -/

/-- R32. `Encode` by its equations, by its masks, and by the rows of the generator matrix. -/
def Obligations.EncodeFollowsTheGenerator : Prop :=
  (∀ d : Nibble,
    (Codec.encode d).extractLsb' 0 4 = d ∧
    (Codec.encode d)[4] = (d[0] ^^ d[1] ^^ d[2]) ∧ (Codec.encode d)[5] = (d[0] ^^ d[1] ^^ d[3]) ∧
    (Codec.encode d)[6] = (d[0] ^^ d[2] ^^ d[3]) ∧
    (Codec.encode d)[4] = parity (d &&& 0x7#4) ∧ (Codec.encode d)[5] = parity (d &&& 0xB#4) ∧
    (Codec.encode d)[6] = parity (d &&& 0xD#4) ∧
    Codec.encode d = (if d[0] then 0b1110001#7 else 0) ^^^ (if d[1] then 0b0110010#7 else 0) ^^^
      (if d[2] then 0b1010100#7 else 0) ^^^ (if d[3] then 0b1101000#7 else 0)) ∧
  (List.range 16).map (fun n => Codec.encode (BitVec.ofNat 4 n)) =
    [0x00#7, 0x71#7, 0x32#7, 0x43#7, 0x54#7, 0x25#7, 0x66#7, 0x17#7,
     0x68#7, 0x19#7, 0x5A#7, 0x2B#7, 0x3C#7, 0x4D#7, 0x0E#7, 0x7F#7]

/-- R34. `Syndrome` by its equations, by its masks, by its numeric value, by the columns of the parity-check matrix, and by
the parity equations of R32 with the received parity bit added. -/
def Obligations.SyndromeFollowsTheParityChecks : Prop :=
  ∀ r : Word7,
    (Codec.syndrome r)[0] = (r[0] ^^ r[1] ^^ r[2] ^^ r[4]) ∧ (Codec.syndrome r)[1] = (r[0] ^^ r[1] ^^ r[3] ^^ r[5]) ∧
    (Codec.syndrome r)[2] = (r[0] ^^ r[2] ^^ r[3] ^^ r[6]) ∧
    (Codec.syndrome r)[0] = parity (r &&& 0x17#7) ∧ (Codec.syndrome r)[1] = parity (r &&& 0x2B#7) ∧
    (Codec.syndrome r)[2] = parity (r &&& 0x4D#7) ∧
    (Codec.syndrome r).toNat =
      (Codec.syndrome r)[0].toNat + 2 * (Codec.syndrome r)[1].toNat + 4 * (Codec.syndrome r)[2].toNat ∧
    Codec.syndrome r = (if r[0] then 0b111#3 else 0) ^^^ (if r[1] then 0b011#3 else 0) ^^^
      (if r[2] then 0b101#3 else 0) ^^^ (if r[3] then 0b110#3 else 0) ^^^ (if r[4] then 0b001#3 else 0) ^^^
      (if r[5] then 0b010#3 else 0) ^^^ (if r[6] then 0b100#3 else 0) ∧
    Codec.syndrome r = (Codec.encode (r.extractLsb' 0 4)).extractLsb' 4 3 ^^^ r.extractLsb' 4 3 ∧
    (∀ d : Nibble, r = Codec.encode d → Codec.syndrome r = 0)

/-- R35. The table's entries, that a flip of bit `k` has the syndrome whose entry is `k`, that the table is a bijection, and
`FlipMask`. -/
def Obligations.CorrectionTableNamesTheFlippedBit : Prop :=
  Codec.corrTable 0 = 7 ∧ Codec.corrTable 1 = 4 ∧ Codec.corrTable 2 = 5 ∧ Codec.corrTable 3 = 1 ∧
  Codec.corrTable 4 = 6 ∧ Codec.corrTable 5 = 2 ∧ Codec.corrTable 6 = 3 ∧ Codec.corrTable 7 = 0 ∧
  (∀ k : Fin 7, Codec.corrTable (Codec.syndrome (1#7 <<< k.val)) = BitVec.ofNat 3 k.val) ∧
  Function.Bijective Codec.corrTable ∧
  (∀ j k : Fin 7, j ≠ k → Codec.syndrome (1#7 <<< j.val) ≠ Codec.syndrome (1#7 <<< k.val)) ∧
  (∀ k : Fin 7, Codec.syndrome (1#7 <<< k.val) ≠ 0) ∧
  (∀ (d : Nibble) (k : Fin 7), Codec.decode (Codec.encode d ^^^ 1#7 <<< k.val) = Codec.encode d) ∧
  Codec.flipMask 7 = 0b0000000#7 ∧ (∀ k : Fin 7, Codec.flipMask (BitVec.ofNat 3 k.val) = 1#7 <<< k.val)

/-- R42. Round trip, on the functions and on the block's DECODE; the codewords are exactly the words of syndrome 000. -/
def Obligations.EncodeThenDecodeRoundTrips : Prop :=
  (∀ d : Nibble, Codec.syndrome (Codec.encode d) = 0b000#3 ∧ Codec.decode (Codec.encode d) = Codec.encode d) ∧
  (∀ r : Word7, Codec.syndrome r = 0b000#3 ↔ ∃ d : Nibble, Codec.encode d = r) ∧
  ((List.range 128).filter fun n => Codec.syndrome (BitVec.ofNat 7 n) = 0b000#3).length = 16 ∧
  (∀ (d : Nibble) (a b c : Word7) (x : Source) (s : State),
    ∃ t u, exec (.encode x b) s = .next t ∧ exec (.decode (.res a) c) t = .next u ∧ u.res = t.res ∧ u.syn = 0b000#3 ∧
      (operandX x s).extractLsb' 0 4 = u.dout ∧ (x = .word (d.setWidth 7) → u.res = Codec.encode d))

/-- R43. Every single flip of every codeword is corrected, on the functions and on the block's DECODE. -/
def Obligations.SingleErrorsAreCorrected : Prop :=
  (∀ (d : Nibble) (k : Fin 7), Codec.decode (Codec.encode d ^^^ 1#7 <<< k.val) = Codec.encode d ∧
    Codec.syndrome (Codec.encode d ^^^ 1#7 <<< k.val) = Codec.syndrome (1#7 <<< k.val)) ∧
  (∀ (d : Nibble) (k : Fin 7) (x : Source) (b : Word7) (s : State), operandX x s = Codec.encode d ^^^ 1#7 <<< k.val →
    ∃ t, exec (.decode x b) s = .next t ∧ t.res = Codec.encode d ∧ t.syn = Codec.syndrome (1#7 <<< k.val) ∧
      t.loc = BitVec.ofNat 3 k.val ∧ t.err = true ∧ t.dout = d)

/-- R44. DECODE lands on the one codeword at Hamming distance 0 or 1 from its operand, and each codeword is the decode of
itself and its 7 neighbours. -/
def Obligations.DecodeIsTheNearestCodeword : Prop :=
  (∀ (x : Source) (b : Word7) (s : State), ∃ t, exec (.decode x b) s = .next t ∧ Codec.syndrome t.res = 0b000#3 ∧
    popcount (t.res ^^^ operandX x s) ≤ 1 ∧
    ∀ d : Nibble, popcount (Codec.encode d ^^^ operandX x s) ≤ 1 → Codec.encode d = t.res) ∧
  (∀ r : Word7, Codec.syndrome (Codec.decode r) = 0b000#3) ∧
  (∀ (d : Nibble) (r : Word7), Codec.decode r = Codec.encode d ↔
    r = Codec.encode d ∨ ∃ k : Fin 7, r = Codec.encode d ^^^ 1#7 <<< k.val) ∧
  (∀ d : Nibble, ((List.range 128).filter fun n => Codec.decode (BitVec.ofNat 7 n) = Codec.encode d).length = 8)

/-- R45. What DECODE does to a codeword with the error pattern `e`: right exactly for weight at most 1, silently
miscorrected for weight 2 or more and nonzero syndrome, unnoticed for a nonzero codeword. -/
def Obligations.DecodingFailsExactlyBeyondOneError : Prop :=
  (∀ (d : Nibble) (e : Word7) (x : Source) (b : Word7) (s : State), operandX x s = Codec.encode d ^^^ e →
    ∃ t, exec (.decode x b) s = .next t ∧
      (t.res = Codec.encode d ↔ popcount e ≤ 1) ∧
      (2 ≤ popcount e → Codec.syndrome e ≠ 0b000#3 → Codec.corrTable (Codec.syndrome e) ≠ 7 ∧
        t.res = Codec.encode d ^^^ e ^^^ 1#7 <<< (Codec.corrTable (Codec.syndrome e)).toNat ∧
        (∃ d' : Nibble, t.res = Codec.encode d') ∧ t.res ≠ Codec.encode d) ∧
      (popcount e = 2 → Codec.syndrome e ≠ 0b000#3 ∧ popcount (t.res ^^^ Codec.encode d) = 3) ∧
      (e ≠ 0 → (∃ d' : Nibble, e = Codec.encode d') →
        Codec.syndrome (operandX x s) = 0b000#3 ∧ t.err = false ∧ t.res = operandX x s ∧ t.res ≠ Codec.encode d)) ∧
  (List.range 8).map (fun weight => ((List.range 16).filter fun n =>
    BitVec.ofNat 4 n ≠ 0 ∧ popcount (Codec.encode (BitVec.ofNat 4 n)) = weight).length) = [0, 0, 0, 7, 7, 0, 0, 1]

/-- R46. `Syndrome` and `Encode` are linear, and the syndrome sees only the error pattern. -/
def Obligations.CodeIsLinear : Prop :=
  (∀ x y : Word7, Codec.syndrome (x ^^^ y) = Codec.syndrome x ^^^ Codec.syndrome y) ∧
  (∀ d d' : Nibble, Codec.encode (d ^^^ d') = Codec.encode d ^^^ Codec.encode d') ∧
  (∀ (d : Nibble) (e : Word7), Codec.syndrome (Codec.corrupt (Codec.encode d) e) = Codec.syndrome e)

/-- R47. The data bits come back exactly if the error pattern has weight at most 1, and a decoded word is the encoding of
its own data bits. -/
def Obligations.DataBitsAreRecovered : Prop :=
  (∀ d : Nibble, (Codec.encode d).extractLsb' 0 4 = d) ∧
  (∀ (d : Nibble) (e : Word7) (x : Source) (b : Word7) (s : State), operandX x s = Codec.encode d ^^^ e →
    ∃ t, exec (.decode x b) s = .next t ∧ (t.dout = d ↔ popcount e ≤ 1) ∧ (t.res ≠ Codec.encode d → t.dout ≠ d)) ∧
  (∀ r : Word7, Codec.encode ((Codec.decode r).extractLsb' 0 4) = Codec.decode r)

/-- R49, R45. No output tells a two-bit error from a one-bit error. For every codeword and two-bit pattern, another codeword
with a one-bit pattern is the same received word, and after DECODE all five outputs are the same, with ERR 1. For one and the
same codeword, every two-bit pattern has a one-bit pattern after which SYN, LOC and ERR are the same. A codeword-valued error
leaves ERR 0. -/
def Obligations.TwoBitErrorsLookLikeOneBitErrors : Prop :=
  (∀ (d : Nibble) (e : Word7), popcount e = 2 → ∃ (d' : Nibble) (e' : Word7), d' ≠ d ∧ popcount e' = 1 ∧
    Codec.encode d ^^^ e = Codec.encode d' ^^^ e' ∧
    ∀ (x x' : Source) (b b' : Word7) (s s' : State),
      operandX x s = Codec.encode d ^^^ e → operandX x' s' = Codec.encode d' ^^^ e' →
      ∃ t t', exec (.decode x b) s = .next t ∧ exec (.decode x' b') s' = .next t' ∧
        t.outputs = t'.outputs ∧ t.err = true) ∧
  (∀ e : Word7, popcount e = 2 → ∃ e' : Word7, popcount e' = 1 ∧
    ∀ (d : Nibble) (x x' : Source) (b b' : Word7) (s s' : State),
      operandX x s = Codec.encode d ^^^ e → operandX x' s' = Codec.encode d ^^^ e' →
      ∃ t t', exec (.decode x b) s = .next t ∧ exec (.decode x' b') s' = .next t' ∧
        t.syn = t'.syn ∧ t.loc = t'.loc ∧ t.err = true ∧ t'.err = true) ∧
  (∀ (d d' : Nibble) (x : Source) (b : Word7) (s : State), operandX x s = Codec.encode d ^^^ Codec.encode d' →
    ∃ t, exec (.decode x b) s = .next t ∧ t.err = false)

/-! ### The operations -/

/-- R38, clause by clause: effect and frame, encoding, syntax, corner cases, example. -/
def Obligations.EncodeOperation : Prop :=
  (∀ (x : Source) (b : Word7) (s : State), ∃ t, exec (.encode x b) s = .next t ∧
    t.res = Codec.encode ((operandX x s).extractLsb' 0 4) ∧ t.syn = s.syn ∧ t.err = s.err ∧ t.loc = s.loc ∧
    t.dout = (operandX x s).extractLsb' 0 4 ∧ t.inputs = s.inputs) ∧
  (∀ w : Cmd, w.extractLsb' 0 2 = 0b00#2 → Sys2Proof.decode w =
    .encode (if w.getLsbD 2 then .res (w.extractLsb' 3 7) else .word (w.extractLsb' 3 7)) (w.extractLsb' 10 7)) ∧
  (∀ n : Nat, n ≤ 0xF → assemble (.encode (.imm n)) = .ok (.issue (.encode (.word (BitVec.ofNat 7 n)) 0))) ∧
  assemble (.encode .res) = .ok (.issue (.encode (.res 0) 0)) ∧
  Codec.encode 0x0#4 = 0x00#7 ∧ Codec.encode 0xF#4 = 0x7F#7 ∧
  (∀ (x x' : Source) (b b' : Word7) (s : State),
    (operandX x s).extractLsb' 0 4 = (operandX x' s).extractLsb' 0 4 →
    exec (.encode x b) s = exec (.encode x' b') s) ∧
  assemble (.encode (.imm 0x1D)) = .error .immediateTooWide ∧
  (∀ (b : Word7) (s : State), ∃ t, exec (.encode (.word 0x7D#7) b) s = .next t ∧ t.res = Codec.encode 0xD#4) ∧
  (∀ (x : Source) (a b b' : Word7) (s : State), ∃ t u, exec (.decode x b) s = .next t ∧
    exec (.encode (.res a) b') t = .next u ∧ u.res = t.res) ∧
  (∀ s : State, ∃ t, exec (.encode (.word 0x0D#7) 0) s = .next t ∧ t.res = 0x4D#7)

/-- R39, clause by clause: effect and frame, encoding, syntax, corner cases, example. -/
def Obligations.CorruptOperation : Prop :=
  (∀ (x : Source) (b : Word7) (s : State), ∃ t, exec (.corrupt x b) s = .next t ∧
    t.res = operandX x s ^^^ b ∧ (∀ k : Fin 7, t.res[k] = ((operandX x s)[k] ^^ b[k])) ∧
    t.syn = s.syn ∧ t.err = s.err ∧ t.loc = s.loc ∧ t.dout = (operandX x s ^^^ b).extractLsb' 0 4 ∧
    t.inputs = s.inputs) ∧
  (∀ w : Cmd, w.extractLsb' 0 2 = 0b01#2 → Sys2Proof.decode w =
    .corrupt (if w.getLsbD 2 then .res (w.extractLsb' 3 7) else .word (w.extractLsb' 3 7)) (w.extractLsb' 10 7)) ∧
  (∀ n e : Nat, n ≤ 0x7F → e ≤ 0x7F → assemble (.corrupt (.imm n) e) =
    .ok (.issue (.corrupt (.word (BitVec.ofNat 7 n)) (BitVec.ofNat 7 e)))) ∧
  (∀ e : Nat, e ≤ 0x7F → assemble (.corrupt .res e) = .ok (.issue (.corrupt (.res 0) (BitVec.ofNat 7 e)))) ∧
  (∀ (x : Source) (s : State), ∃ t, exec (.corrupt x 0x00#7) s = .next t ∧ t.res = operandX x s) ∧
  (∀ (x : Source) (s : State), ∃ t, exec (.corrupt x 0x7F#7) s = .next t ∧ t.res = ~~~(operandX x s) ∧
    (Codec.syndrome (operandX x s) = 0b000#3 → Codec.syndrome t.res = 0b000#3)) ∧
  (∀ (a a' e : Word7) (s : State), ∃ t u, exec (.corrupt (.res a) e) s = .next t ∧ t.res = s.res ^^^ e ∧
    exec (.corrupt (.res a') e) t = .next u ∧ u.res = s.res) ∧
  (∀ s : State, s.res = 0x4D#7 → ∃ t, exec (.corrupt (.res 0) 0x04#7) s = .next t ∧ t.res = 0x49#7)

/-- R40, clause by clause: effect and frame, encoding, syntax, corner cases, example. -/
def Obligations.SyndromeOperation : Prop :=
  (∀ (x : Source) (b : Word7) (s : State), ∃ t, exec (.syndrome x b) s = .next t ∧
    t.syn = Codec.syndrome (operandX x s) ∧ (t.err = true ↔ Codec.syndrome (operandX x s) ≠ 0) ∧
    t.loc = Codec.corrTable (Codec.syndrome (operandX x s)) ∧ t.res = s.res ∧ t.dout = s.dout ∧
    t.inputs = s.inputs) ∧
  (∀ w : Cmd, w.extractLsb' 0 2 = 0b10#2 → Sys2Proof.decode w =
    .syndrome (if w.getLsbD 2 then .res (w.extractLsb' 3 7) else .word (w.extractLsb' 3 7)) (w.extractLsb' 10 7)) ∧
  (∀ n : Nat, n ≤ 0x7F → assemble (.syndrome (.imm n)) = .ok (.issue (.syndrome (.word (BitVec.ofNat 7 n)) 0))) ∧
  assemble (.syndrome .res) = .ok (.issue (.syndrome (.res 0) 0)) ∧
  (∀ (d : Nibble) (x : Source) (b : Word7) (s : State), operandX x s = Codec.encode d →
    ∃ t, exec (.syndrome x b) s = .next t ∧ t.syn = 0b000#3 ∧ t.err = false ∧ t.loc = 7) ∧
  (∀ (d : Nibble) (e : Word7) (x : Source) (b : Word7) (s : State), operandX x s = Codec.encode d ^^^ e →
    ∃ t, exec (.syndrome x b) s = .next t ∧ t.syn = Codec.syndrome e) ∧
  (∀ s : State, s.res = 0x49#7 → ∃ t, exec (.syndrome (.res 0) 0) s = .next t ∧ t.syn = 5 ∧ t.err = true ∧ t.loc = 2 ∧
    t.res = 0x49#7)

/-- R41, clause by clause: effect and frame, encoding, syntax, what ERR and LOC say of the correction, corner cases,
example. -/
def Obligations.DecodeOperation : Prop :=
  (∀ (x : Source) (b : Word7) (s : State), ∃ t, exec (.decode x b) s = .next t ∧
    t.syn = Codec.syndrome (operandX x s) ∧
    t.res = operandX x s ^^^ Codec.flipMask (Codec.corrTable (Codec.syndrome (operandX x s))) ∧
    (t.err = true ↔ popcount (t.res ^^^ operandX x s) = 1) ∧
    ((t.loc = 7 ∧ t.res = operandX x s) ∨ (t.loc ≠ 7 ∧ t.res = operandX x s ^^^ 1#7 <<< t.loc.toNat)) ∧
    t.dout = (Codec.decode (operandX x s)).extractLsb' 0 4 ∧ t.inputs = s.inputs) ∧
  (∀ w : Cmd, w.extractLsb' 0 2 = 0b11#2 → Sys2Proof.decode w =
    .decode (if w.getLsbD 2 then .res (w.extractLsb' 3 7) else .word (w.extractLsb' 3 7)) (w.extractLsb' 10 7)) ∧
  (∀ n : Nat, n ≤ 0x7F → assemble (.decode (.imm n)) = .ok (.issue (.decode (.word (BitVec.ofNat 7 n)) 0))) ∧
  assemble (.decode .res) = .ok (.issue (.decode (.res 0) 0)) ∧
  (∀ (d : Nibble) (x : Source) (b : Word7) (s : State), operandX x s = Codec.encode d →
    ∃ t, exec (.decode x b) s = .next t ∧ t.res = operandX x s ∧ t.syn = 0b000#3) ∧
  (∀ (d : Nibble) (k : Fin 7) (x : Source) (b : Word7) (s : State), 4 ≤ k.val →
    operandX x s = Codec.encode d ^^^ 1#7 <<< k.val →
    ∃ t, exec (.decode x b) s = .next t ∧ t.res = Codec.encode d ∧ t.dout = d ∧ (operandX x s).extractLsb' 0 4 = d) ∧
  (∀ (d : Nibble) (e : Word7) (x : Source) (b : Word7) (s : State), popcount e = 2 →
    operandX x s = Codec.encode d ^^^ e →
    ∃ t, exec (.decode x b) s = .next t ∧ (∃ d' : Nibble, t.res = Codec.encode d' ∧ d' ≠ d)) ∧
  (∀ (x : Source) (a b b' : Word7) (s : State), ∃ t u, exec (.decode x b) s = .next t ∧
    exec (.decode (.res a) b') t = .next u ∧ u.res = t.res ∧ u.syn = 0b000#3) ∧
  (∀ s : State, s.res = 0x49#7 → ∃ t, exec (.decode (.res 0) 0) s = .next t ∧ t.syn = 5 ∧ t.loc = 2 ∧ t.err = true ∧
    t.res = 0x4D#7 ∧ t.dout = 0xD#4)

/-! ### Commands, operands, outputs -/

/-- R28. Every command word executes, and two words that differ only in ignored fields have the same effect; the assembler
writes the ignored fields as 0. -/
def Obligations.EveryCommandWordIsLegal : Prop :=
  (∀ (r : Word7) (y : Syn3) (rest : List StepInput) (w : Cmd), ∃ t, step ⟨r, y, .command w :: rest⟩ = .next t) ∧
  (∀ (w w' : Cmd) (s : State), w.extractLsb' 0 2 = w'.extractLsb' 0 2 → w.getLsbD 2 = w'.getLsbD 2 →
    (w.getLsbD 2 = true ∨ w.extractLsb' 3 7 = w'.extractLsb' 3 7 ∨
      (w.extractLsb' 0 2 = 0b00#2 ∧ w.extractLsb' 3 4 = w'.extractLsb' 3 4)) →
    (w.extractLsb' 0 2 ≠ 0b01#2 ∨ w.extractLsb' 10 7 = w'.extractLsb' 10 7) →
    exec (Sys2Proof.decode w) s = exec (Sys2Proof.decode w') s) ∧
  (∀ (l : AsmLine) (i : Instr), assemble l = .ok (.issue i) →
    ((encode i).getLsbD 2 = true → (encode i).extractLsb' 3 7 = 0#7) ∧
    ((encode i).extractLsb' 0 2 = 0b00#2 → (encode i).extractLsb' 7 3 = 0#3) ∧
    ((encode i).extractLsb' 0 2 ≠ 0b01#2 → (encode i).extractLsb' 10 7 = 0#7))

/-- R24, R25. Decoding an instruction's word gives the instruction, with every field at every value, and encoding a decoded
word gives the word: no bit of the 17 is dropped. -/
def Obligations.DecodeAndEncodeAreInverse : Prop :=
  (∀ i : Instr, Sys2Proof.decode (encode i) = i) ∧ (∀ w : Cmd, encode (Sys2Proof.decode w) = w) ∧
  (∀ i : Instr, decodeWord (encode i).toNat = .ok i) ∧
  (∀ i : Instr, (encode i).toNat =
    i.fieldB.toNat * 2 ^ 10 + i.source.field.toNat * 2 ^ 3 + i.source.asel.toNat * 2 ^ 2 + i.op.toNat)

/-- R25. Every word is of exactly one row of the opcode table, and decodes to that row's operation. -/
def Obligations.OpcodeTableIsTotalAndUnambiguous : Prop :=
  ∀ w : Cmd, ∃ row, opcodeTable.filter (·.selects w) = [row] ∧ row.mnemonic = (Sys2Proof.decode w).mnemonic ∧
    ((w.extractLsb' 0 2 = 0b00#2 ∧ row.mnemonic = "ENCODE") ∨ (w.extractLsb' 0 2 = 0b01#2 ∧ row.mnemonic = "CORRUPT") ∨
     (w.extractLsb' 0 2 = 0b10#2 ∧ row.mnemonic = "SYNDROME") ∨ (w.extractLsb' 0 2 = 0b11#2 ∧ row.mnemonic = "DECODE"))

/-- R24, R25. Words of spec/95_test_vectors.md decode to the commands they stand for. -/
def Obligations.SpecWordsDecode : Prop :=
  decodeWord 0x00068 = .ok (.encode (.word 0x0D#7) 0) ∧ decodeWord 0x15478 = .ok (.encode (.word 0x0F#7) 0x55#7) ∧
  decodeWord 0x0D091 = .ok (.corrupt (.word 0x12#7) 0x34#7) ∧ decodeWord 0x01005 = .ok (.corrupt (.res 0) 0x04#7) ∧
  decodeWord 0x007FD = .ok (.corrupt (.res 0x7F#7) 0x01#7) ∧ decodeWord 0x0001A = .ok (.syndrome (.word 0x03#7) 0) ∧
  decodeWord 0x00007 = .ok (.decode (.res 0) 0)

/-- R26. The first operand is RES for `asel = 1`, whatever field A holds, and field A for `asel = 0`, whatever RES holds. -/
def Obligations.OperandAssembly : Prop :=
  (∀ (w : Cmd) (s : State), operandX (Sys2Proof.decode w).source s =
    if w.getLsbD 2 then s.res else w.extractLsb' 3 7) ∧
  (∀ (a a' b : Word7) (s : State), exec (.encode (.res a) b) s = exec (.encode (.res a') b) s ∧
    exec (.corrupt (.res a) b) s = exec (.corrupt (.res a') b) s ∧
    exec (.syndrome (.res a) b) s = exec (.syndrome (.res a') b) s ∧
    exec (.decode (.res a) b) s = exec (.decode (.res a') b) s) ∧
  (∀ (i : Instr) (s : State) (v : Word7), i.source.asel = false →
    ∃ t t', exec i s = .next t ∧ exec i { s with res := v } = .next t' ∧ t'.syn = t.syn ∧ t'.inputs = t.inputs ∧
      ((i.op ≠ 0b10#2 ∧ t'.res = t.res) ∨ (i.op = 0b10#2 ∧ t'.res = v ∧ t.res = s.res)))

/-- R10, R11, R12. LOC is the bit DECODE flips for a word whose syndrome is SYN, ERR says SYN is not 0, which is that LOC is
not 7 and that such a word is no codeword, and DOUT's bits are RES's first four. -/
def Obligations.OutputsFollowTheRegisters : Prop :=
  ∀ s : State,
    s.loc = Codec.corrTable s.syn ∧
    (∀ r : Word7, Codec.syndrome r = s.syn →
      (s.loc = 7 ∧ Codec.decode r = r) ∨ (s.loc ≠ 7 ∧ Codec.decode r = r ^^^ 1#7 <<< s.loc.toNat)) ∧
    (s.err = true ↔ s.syn ≠ 0) ∧ (s.err = true ↔ s.loc ≠ 7) ∧
    (∀ r : Word7, Codec.syndrome r = s.syn → (s.err = false ↔ ∃ d : Nibble, r = Codec.encode d)) ∧
    (∀ j : Fin 4, s.dout[j] = s.res[j.castLE (by decide : 4 ≤ 7)])

/-- R59, R60. Two commands in a row: the second, taking RES, works on the value the first wrote, and nothing is lost between
them. -/
def Obligations.NextCommandSeesTheNewResult : Prop :=
  ∀ (r : Word7) (y : Syn3) (rest : List StepInput) (w v : Cmd), v.getLsbD 2 = true →
    ∃ t u, step ⟨r, y, .command w :: .command v :: rest⟩ = .next t ∧ step t = .next u ∧ u.inputs = rest ∧
      ((v.extractLsb' 0 2 = 0b00#2 ∧ u.res = Codec.encode (t.res.extractLsb' 0 4) ∧ u.syn = t.syn) ∨
       (v.extractLsb' 0 2 = 0b01#2 ∧ u.res = t.res ^^^ v.extractLsb' 10 7 ∧ u.syn = t.syn) ∨
       (v.extractLsb' 0 2 = 0b10#2 ∧ u.res = t.res ∧ u.syn = Codec.syndrome t.res) ∨
       (v.extractLsb' 0 2 = 0b11#2 ∧ u.res = Codec.decode t.res ∧ u.syn = Codec.syndrome t.res))

/-- R7. Only a reset and the commands the table names write a register: RES by ENCODE, CORRUPT and DECODE, SYN by SYNDROME
and DECODE. -/
def Obligations.OnlyTheNamedStepsWrite : Prop :=
  ∀ (s t : State), step s = .next t → ∃ i x, s.inputs = i :: t.inputs ∧ i.sample = some x ∧
    (t.res ≠ s.res → x.rst = true ∨ (x.issue = true ∧ x.cmd.extractLsb' 0 2 ≠ 0b10#2)) ∧
    (t.syn ≠ s.syn → x.rst = true ∨
      (x.issue = true ∧ (x.cmd.extractLsb' 0 2 = 0b10#2 ∨ x.cmd.extractLsb' 0 2 = 0b11#2)))

/-! ### The assembler -/

/-- R29. What each form assembles to, and that an immediate too wide for its field is rejected. -/
def Obligations.AssemblerFormsAndRejections : Prop :=
  (∀ n : Nat, assemble (.encode (.imm n)) =
    if n ≤ 0xF then .ok (.issue (.encode (.word (BitVec.ofNat 7 n)) 0)) else .error .immediateTooWide) ∧
  (∀ n e : Nat, assemble (.corrupt (.imm n) e) =
    if n ≤ 0x7F ∧ e ≤ 0x7F then .ok (.issue (.corrupt (.word (BitVec.ofNat 7 n)) (BitVec.ofNat 7 e)))
    else .error .immediateTooWide) ∧
  (∀ e : Nat, assemble (.corrupt .res e) =
    if e ≤ 0x7F then .ok (.issue (.corrupt (.res 0) (BitVec.ofNat 7 e))) else .error .immediateTooWide) ∧
  (∀ n : Nat, assemble (.syndrome (.imm n)) =
    if n ≤ 0x7F then .ok (.issue (.syndrome (.word (BitVec.ofNat 7 n)) 0)) else .error .immediateTooWide) ∧
  (∀ n : Nat, assemble (.decode (.imm n)) =
    if n ≤ 0x7F then .ok (.issue (.decode (.word (BitVec.ofNat 7 n)) 0)) else .error .immediateTooWide) ∧
  assemble (.encode .res) = .ok (.issue (.encode (.res 0) 0)) ∧
  assemble (.syndrome .res) = .ok (.issue (.syndrome (.res 0) 0)) ∧
  assemble (.decode .res) = .ok (.issue (.decode (.res 0) 0))

/-- R29. The assembler emits exactly the commands whose ignored fields are 0, each of them. -/
def Obligations.AssemblerEmitsExactlyTheWellFormed : Prop :=
  ∀ i : Instr, i.wellFormed = true ↔ ∃ l : AsmLine, assemble l = .ok (.issue i)

/-- R30. LOAD is `CORRUPT #imm7, #0x00` and loads RES alone; NOP is an idle step and changes nothing; RESET is a reset
step. -/
def Obligations.PseudoInstructions : Prop :=
  (∀ n : Nat, assemble (.load n) = assemble (.corrupt (.imm n) 0x00)) ∧
  (∀ (n : Nat) (r : Word7) (y : Syn3) (rest : List StepInput), n ≤ 0x7F →
    ∃ a, assemble (.load n) = .ok a ∧ step ⟨r, y, AsmStep.input a :: rest⟩ = .next ⟨BitVec.ofNat 7 n, y, rest⟩) ∧
  (∀ (r : Word7) (y : Syn3) (rest : List StepInput), ∃ a x, assemble .nop = .ok a ∧
    (AsmStep.input a).sample = some x ∧ x.rst = false ∧ x.issue = false ∧
    step ⟨r, y, AsmStep.input a :: rest⟩ = .next ⟨r, y, rest⟩) ∧
  (∀ (r : Word7) (y : Syn3) (rest : List StepInput), ∃ a x, assemble .reset = .ok a ∧
    (AsmStep.input a).sample = some x ∧ x.rst = true ∧
    step ⟨r, y, AsmStep.input a :: rest⟩ = .next ⟨State.reset.res, State.reset.syn, rest⟩)

/-- R29 and log 6. A binary literal is read with its first digit the most significant. R29 says MSB first; that a literal may
have any number of digits, leading zeros among them, and the rest of the lexical form, is the model's choice (log 6, DESIGN
CHOICE). -/
def Obligations.BinaryLiteralsAreMostSignificantFirst : Prop :=
  ∀ bits : List Bool, bits ≠ [] →
    parseImm? ('#' :: '0' :: 'b' :: bits.map fun b => if b then '1' else '0') =
      some (bits.foldl (fun n b => 2 * n + b.toNat) 0)

/-! ### Runs, invariants, isolation -/

/-- R63, R65. The invariant: if every step still to come is two-valued, it is so after a step. -/
def Obligations.DrivenInputsStayDriven : Prop :=
  ∀ s t : State, s.Driven → step s = .next t → t.Driven

/-- The model's choice (log 1, DESIGN CHOICE): State.reset has no coming step, so the invariant of
`DrivenInputsStayDriven` holds of it. No rule of the spec gives State.reset's list. -/
def Obligations.ResetHasDrivenInputs : Prop := State.reset.Driven

/-- R48, R62, R64, and log 3. From every state, a run of the steps the host drives completes, one step each, if all of them are
two-valued; and it completes only then, where a bit that a step would ignore counts too by the model's reading of R63 (log 3,
DEDUCED). -/
def Obligations.DrivenRunsComplete : Prop :=
  ∀ s : State, s.Driven ↔ SafeRun s

/-- R20, R37, R64. Issue order: from any registers, the first `k` steps of a program whose inputs are two-valued complete and
give the registers got by folding R37's step (reset, idle or the command's effect) over the sampled inputs in list order, with
the rest of the program still to come. -/
def Obligations.RunsFoldTheStepInIssueOrder : Prop :=
  ∀ (r : Word7) (y : Syn3) (program : List StepInput) (sampled : List Sampled) (k : Nat),
    program.map StepInput.sample = sampled.map some → k ≤ program.length →
    run k ⟨r, y, program⟩ =
      .next ⟨((sampled.take k).foldl Registers.afterStep ⟨r, y⟩).res,
             ((sampled.take k).foldl Registers.afterStep ⟨r, y⟩).syn, program.drop k⟩

/-- R58. A program that gives RES a value before any read of it: whatever RES and SYN hold at the start, `k` steps of it stop
alike, and once RES has been given a value it is the same, and once SYN has been given one so are SYN, LOC and ERR. The last
clause is about State.powerUp, whose registers are the model's free values (log 4, DESIGN CHOICE): it holds whatever they are,
and says that a reset step forgets them. -/
def Obligations.PowerUpValuesAreForgotten : Prop :=
  (∀ (program : List StepInput) (r r' : Word7) (y y' : Syn3) (k : Nat), setsResFirst program = true →
    (∃ t t', run k ⟨r, y, program⟩ = .next t ∧ run k ⟨r', y', program⟩ = .next t' ∧ t.inputs = t'.inputs ∧
      ((program.take k).any StepInput.setsRes = true → t.res = t'.res ∧ t.dout = t'.dout) ∧
      ((program.take k).any StepInput.setsSyn = true → t.syn = t'.syn ∧ t.loc = t'.loc ∧ t.err = t'.err)) ∨
    (∃ f, run k ⟨r, y, program⟩ = .refused f ∧ run k ⟨r', y', program⟩ = .refused f)) ∧
  (∀ (issue : Bool) (cmd : Cmd) (rest : List StepInput) (j k : Nat),
    setsResFirst (.driven true issue cmd :: rest) = true ∧
    step (State.powerUp j (.driven true issue cmd :: rest)) =
      step (State.powerUp k (.driven true issue cmd :: rest)))

/-- R8, R9. Every 7-bit value of RES together with every 3-bit value of SYN is reached from the reset state. -/
def Obligations.EveryRegisterValueIsReachable : Prop :=
  ∀ (r : Word7) (y : Syn3), ∃ (program : List StepInput) (t : State),
    run program.length { State.reset with inputs := program } = .next t ∧ t.res = r ∧ t.syn = y ∧ t.inputs = []

/-- R22, in the model's bank of instances. That the instances are a list of states and step one at a time, by number, is the
model's choice (log 9, DESIGN CHOICE). A step of one instance leaves every other as it was and is the instance's own step;
steps of two instances give the same bank in either order. -/
def Obligations.InstancesAreIndependent : Prop :=
  (∀ (bank bank' : List State) (k : Nat), Bank.step k bank = .next bank' →
    bank'.length = bank.length ∧ (∀ j : Nat, j ≠ k → bank'[j]? = bank[j]?) ∧
    ∃ s t, bank[k]? = some s ∧ step s = .next t ∧ bank'[k]? = some t) ∧
  (∀ (bank : List State) (k : Nat) (s t : State), bank[k]? = some s → step s = .next t →
    ∃ bank', Bank.step k bank = .next bank') ∧
  (∀ (bank : List State) (j k : Nat) (sj sk tj tk : State), j ≠ k → bank[j]? = some sj → bank[k]? = some sk →
    step sj = .next tj → step sk = .next tk →
    ∃ bj bk final, Bank.step j bank = .next bj ∧ Bank.step k bank = .next bk ∧
      Bank.step k bj = .next final ∧ Bank.step j bk = .next final)
end

