-- ==== Sys2Proof/Laws/Assembler.lean ====
section
/-! SUPPORT. What the assembler's shared parts answer (R29). -/

namespace Sys2Proof.Machine

theorem asmImm7_of_le {n : Nat} (h : n ≤ 0x7F) : asmImm7 n = .ok (BitVec.ofNat 7 n) := if_pos h

theorem asmImm7_of_not_le {n : Nat} (h : ¬ n ≤ 0x7F) : asmImm7 n = .error .immediateTooWide := if_neg h

theorem asmImm4_of_le {n : Nat} (h : n ≤ 0xF) : asmImm4 n = .ok (BitVec.ofNat 7 n) := if_pos h

theorem asmImm4_of_not_le {n : Nat} (h : ¬ n ≤ 0xF) : asmImm4 n = .error .immediateTooWide := if_neg h

/-- The value of a binary digit's character. -/
theorem literalDigit?_binary (b : Bool) : literalDigit? (if b then '1' else '0') = some b.toNat := by
  cases b <;> decide

end Sys2Proof.Machine
end

