-- ==== Sys2Proof/Laws/Codec.lean ====
section
/-! SUPPORT. The bits of the code's functions, each as the spec's equation gives it (R32, R34), and the table's range. -/

namespace Sys2Proof.Machine

/-- Every bit of `Encode(d)`, in element order (R31, R32). -/
theorem Codec.encode_bits (d : Nibble) :
    (Codec.encode d)[0] = d[0] ∧ (Codec.encode d)[1] = d[1] ∧ (Codec.encode d)[2] = d[2] ∧
    (Codec.encode d)[3] = d[3] ∧ (Codec.encode d)[4] = (d[0] ^^ d[1] ^^ d[2]) ∧
    (Codec.encode d)[5] = (d[0] ^^ d[1] ^^ d[3]) ∧ (Codec.encode d)[6] = (d[0] ^^ d[2] ^^ d[3]) := by
  revert d; decide

/-- Every bit of `Syndrome(r)` (R34). -/
theorem Codec.syndrome_bits (r : Word7) :
    (Codec.syndrome r)[0] = (r[0] ^^ r[1] ^^ r[2] ^^ r[4]) ∧
    (Codec.syndrome r)[1] = (r[0] ^^ r[1] ^^ r[3] ^^ r[5]) ∧
    (Codec.syndrome r)[2] = (r[0] ^^ r[2] ^^ r[3] ^^ r[6]) := by
  refine ⟨?_, ?_, ?_⟩ <;> rw [← BitVec.getLsbD_eq_getElem] <;> simp only [Codec.syndrome, BitVec.getLsbD_append] <;>
    simp

/-- The entry 7 is at index 0 only (R35). -/
theorem Codec.corrTable_eq_seven : ∀ y : Syn3, Codec.corrTable y = 7 ↔ y = 0 := by decide

end Sys2Proof.Machine
end

