-- ==== Sys2Proof/Laws/Decode.lean ====
section
/-! SUPPORT. The fields of a packed command word (R24). -/

namespace Sys2Proof

@[simp] theorem Cmd.op_packCmd (b a : Word7) (s : Bool) (o : BitVec 2) : Cmd.op (packCmd b a s o) = o := by
  ext i hi
  simp only [Cmd.op, packCmd, BitVec.getElem_extractLsb', BitVec.getLsbD_append]
  simp [hi, BitVec.getLsbD_eq_getElem]

@[simp] theorem Cmd.asel_packCmd (b a : Word7) (s : Bool) (o : BitVec 2) : Cmd.asel (packCmd b a s o) = s := by
  simp only [Cmd.asel, packCmd, BitVec.getLsbD_append]
  simp

@[simp] theorem Cmd.a_packCmd (b a : Word7) (s : Bool) (o : BitVec 2) : Cmd.a (packCmd b a s o) = a := by
  ext i hi
  simp only [Cmd.a, packCmd, BitVec.getElem_extractLsb', BitVec.getLsbD_append]
  have h2 : ¬ 3 + i < 2 := by omega
  have h3 : ¬ 3 + i - 2 < 1 := by omega
  have h4 : 3 + i - 2 - 1 = i := by omega
  simp [h2, h3, h4, hi, BitVec.getLsbD_eq_getElem]

@[simp] theorem Cmd.b_packCmd (b a : Word7) (s : Bool) (o : BitVec 2) : Cmd.b (packCmd b a s o) = b := by
  ext i hi
  simp only [Cmd.b, packCmd, BitVec.getElem_extractLsb', BitVec.getLsbD_append]
  have h2 : ¬ 10 + i < 2 := by omega
  have h3 : ¬ 10 + i - 2 < 1 := by omega
  have h4 : ¬ 10 + i - 2 - 1 < 7 := by omega
  have h5 : 10 + i - 2 - 1 - 7 = i := by omega
  simp [h2, h3, h4, h5, hi, BitVec.getLsbD_eq_getElem]

/-- A source is its `asel` bit and its field A (R26). -/
@[simp] theorem Source.of_asel_field (x : Source) : (if x.asel then Source.res x.field else .word x.field) = x := by
  cases x <;> rfl

/-- The source read from a packed word is the one packed. -/
@[simp] theorem Cmd.source_packCmd (b : Word7) (x : Source) (o : BitVec 2) :
    Cmd.source (packCmd b x.field x.asel o) = x := by
  simp [Cmd.source]

/-- Which operation a word is, from its `op` field (R25). -/
theorem decode_of_op_encode {w : Cmd} (h : Cmd.op w = 0) : decode w = .encode (Cmd.source w) (Cmd.b w) := by
  simp [decode, h]

theorem decode_of_op_corrupt {w : Cmd} (h : Cmd.op w = 1) : decode w = .corrupt (Cmd.source w) (Cmd.b w) := by
  simp [decode, h]

theorem decode_of_op_syndrome {w : Cmd} (h : Cmd.op w = 2) : decode w = .syndrome (Cmd.source w) (Cmd.b w) := by
  simp [decode, h]

theorem decode_of_op_decode {w : Cmd} (h : Cmd.op w = 3) : decode w = .decode (Cmd.source w) (Cmd.b w) := by
  simp [decode, h]

/-- The four values of `op` (R25). -/
theorem op_cases : ∀ o : BitVec 2, o = 0 ∨ o = 1 ∨ o = 2 ∨ o = 3 := by decide

end Sys2Proof
end

