-- ==== Sys2Proof/Laws/State.lean ====
section
/-! SUPPORT. One lemma for each field and each update of State, and for each view and each update. -/

namespace Sys2Proof.Machine

@[simp] theorem State.writeRes_res (s : State) (v : Word7) : (s.writeRes v).res = v := rfl
@[simp] theorem State.writeRes_syn (s : State) (v : Word7) : (s.writeRes v).syn = s.syn := rfl
@[simp] theorem State.writeRes_inputs (s : State) (v : Word7) : (s.writeRes v).inputs = s.inputs := rfl
@[simp] theorem State.writeRes_loc (s : State) (v : Word7) : (s.writeRes v).loc = s.loc := rfl
@[simp] theorem State.writeRes_err (s : State) (v : Word7) : (s.writeRes v).err = s.err := rfl
@[simp] theorem State.writeRes_dout (s : State) (v : Word7) : (s.writeRes v).dout = v.extractLsb' 0 4 := rfl

@[simp] theorem State.writeSyn_res (s : State) (v : Syn3) : (s.writeSyn v).res = s.res := rfl
@[simp] theorem State.writeSyn_syn (s : State) (v : Syn3) : (s.writeSyn v).syn = v := rfl
@[simp] theorem State.writeSyn_inputs (s : State) (v : Syn3) : (s.writeSyn v).inputs = s.inputs := rfl
@[simp] theorem State.writeSyn_loc (s : State) (v : Syn3) : (s.writeSyn v).loc = Codec.corrTable v := rfl
@[simp] theorem State.writeSyn_err (s : State) (v : Syn3) : (s.writeSyn v).err = (v != 0) := rfl
@[simp] theorem State.writeSyn_dout (s : State) (v : Syn3) : (s.writeSyn v).dout = s.dout := rfl

@[simp] theorem State.writeBoth_res (s : State) (r : Word7) (y : Syn3) : (s.writeBoth r y).res = r := rfl
@[simp] theorem State.writeBoth_syn (s : State) (r : Word7) (y : Syn3) : (s.writeBoth r y).syn = y := rfl
@[simp] theorem State.writeBoth_inputs (s : State) (r : Word7) (y : Syn3) :
    (s.writeBoth r y).inputs = s.inputs := rfl
@[simp] theorem State.writeBoth_loc (s : State) (r : Word7) (y : Syn3) :
    (s.writeBoth r y).loc = Codec.corrTable y := rfl
@[simp] theorem State.writeBoth_err (s : State) (r : Word7) (y : Syn3) : (s.writeBoth r y).err = (y != 0) := rfl
@[simp] theorem State.writeBoth_dout (s : State) (r : Word7) (y : Syn3) :
    (s.writeBoth r y).dout = r.extractLsb' 0 4 := rfl

@[simp] theorem State.resetRegs_res (s : State) : s.resetRegs.res = 0 := rfl
@[simp] theorem State.resetRegs_syn (s : State) : s.resetRegs.syn = 0 := rfl
@[simp] theorem State.resetRegs_inputs (s : State) : s.resetRegs.inputs = s.inputs := rfl

@[simp] theorem State.taken_res (s : State) : s.taken.res = s.res := rfl
@[simp] theorem State.taken_syn (s : State) : s.taken.syn = s.syn := rfl
@[simp] theorem State.taken_inputs (s : State) : s.taken.inputs = s.inputs.tail := rfl

@[simp] theorem State.present_res (s : State) (w : Cmd) : (s.present w).res = s.res := rfl
@[simp] theorem State.present_syn (s : State) (w : Cmd) : (s.present w).syn = s.syn := rfl
@[simp] theorem State.present_inputs (s : State) (w : Cmd) : (s.present w).inputs = .command w :: s.inputs := rfl
@[simp] theorem State.present_taken (s : State) (w : Cmd) : (s.present w).taken = s := rfl

@[simp] theorem State.mk_taken (r : Word7) (y : Syn3) (i : StepInput) (rest : List StepInput) :
    (State.mk r y (i :: rest)).taken = ⟨r, y, rest⟩ := rfl

/-- Two states with the same registers and the same coming steps are one state. -/
theorem State.eq_of_fields {s t : State} (hr : s.res = t.res) (hy : s.syn = t.syn) (hi : s.inputs = t.inputs) : s = t := by
  cases s; cases t; simp_all

end Sys2Proof.Machine
end

