-- ==== Sys2Proof/Laws/Meanings.lean ====
section
/-! SUPPORT. What each meaning answers, in terms of the register writes. -/

namespace Sys2Proof.Machine

@[simp] theorem operandX_word (a : Word7) (s : State) : operandX (.word a) s = a := rfl
@[simp] theorem operandX_res (a : Word7) (s : State) : operandX (.res a) s = s.res := rfl

/-- The operand a command word names (R26). -/
theorem operandX_source (w : Cmd) (s : State) :
    operandX (Cmd.source w) s = if w.getLsbD 2 then s.res else w.extractLsb' 3 7 := by
  unfold Cmd.source Cmd.asel
  cases w.getLsbD 2 <;> rfl

theorem operandD_eq (x : Source) (s : State) : operandD x s = (operandX x s).extractLsb' 0 4 := rfl

theorem exec_encode (x : Source) (b : Word7) (s : State) :
    exec (.encode x b) s = .next (s.writeRes (Codec.encode (operandD x s))) := rfl

theorem exec_corrupt (x : Source) (b : Word7) (s : State) :
    exec (.corrupt x b) s = .next (s.writeRes (operandX x s ^^^ b)) := rfl

theorem exec_syndrome (x : Source) (b : Word7) (s : State) :
    exec (.syndrome x b) s = .next (s.writeSyn (Codec.syndrome (operandX x s))) := rfl

theorem exec_decode (x : Source) (b : Word7) (s : State) :
    exec (.decode x b) s = .next (s.writeBoth (Codec.decode (operandX x s)) (Codec.syndrome (operandX x s))) := rfl

/-- Everything a command can do: it answers a next state with the host's coming steps as they were. -/
theorem exec_cases (i : Instr) (s : State) :
    (∃ v, exec i s = .next (s.writeRes v)) ∨ (∃ y, exec i s = .next (s.writeSyn y)) ∨
      ∃ v y, exec i s = .next (s.writeBoth v y) := by
  cases i with
  | encode x b => exact .inl ⟨_, rfl⟩
  | corrupt x b => exact .inl ⟨_, rfl⟩
  | syndrome x b => exact .inr (.inl ⟨_, rfl⟩)
  | decode x b => exact .inr (.inr ⟨_, _, rfl⟩)

/-- No command touches the host's coming steps. -/
theorem exec_inputs {i : Instr} {s t : State} (h : exec i s = .next t) : t.inputs = s.inputs := by
  obtain ⟨v, hv⟩ | ⟨y, hy⟩ | ⟨v, y, hv⟩ := exec_cases i s <;> simp_all <;> subst h <;> rfl

end Sys2Proof.Machine
end

