-- ==== Sys2Proof/Laws/Ops.lean ====
section
/-! SUPPORT. Driving and sampling the input lines (R23, R63). -/

namespace Sys2Proof.Machine

@[simp] theorem Level.value?_ofBool (b : Bool) : (Level.ofBool b).value? = some b := by cases b <;> rfl

theorem Level.known_ofBool (b : Bool) : (Level.ofBool b).Known := by cases b <;> simp [Level.ofBool, Level.Known]

theorem Level.value?_eq_none {l : Level} : l.value? = none ↔ l = .unknown := by cases l <;> simp [Level.value?]

theorem linesValue?_linesOf (n m : Nat) : linesValue? (linesOf n m) = some (m % 2 ^ n) := by
  induction n generalizing m with
  | zero => simp [linesOf, linesValue?]; omega
  | succ n ih =>
    rcases Nat.mod_two_eq_zero_or_one m with h | h <;>
      simp [linesOf, linesValue?, h, ih, Nat.pow_succ', Nat.mod_mul]

/-- Lines have no number exactly if one of them is unknown (R63). -/
theorem linesValue?_eq_none {ls : List Level} : linesValue? ls = none ↔ Level.unknown ∈ ls := by
  induction ls with
  | nil => simp [linesValue?]
  | cons l ls ih => cases l <;> cases h : linesValue? ls <;> simp_all [linesValue?, Level.value?]

/-- A driven command word is sampled as it is (R23). -/
@[simp] theorem sampleCmd_driveCmd (w : Cmd) : sampleCmd (driveCmd w) = some w := by
  have h := w.isLt
  simp only [sampleCmd, driveCmd, Vector.toList_mk, linesValue?_linesOf, Option.map_some]
  rw [Nat.mod_eq_of_lt h, BitVec.ofNat_toNat, BitVec.setWidth_eq]

theorem sampleCmd_eq_none {v : Vector Level 17} : sampleCmd v = none ↔ Level.unknown ∈ v.toList := by
  simp [sampleCmd, linesValue?_eq_none]

/-- Driven inputs are sampled as they are (R23). -/
@[simp] theorem StepInput.sample_driven (r e : Bool) (w : Cmd) : (StepInput.driven r e w).sample = some ⟨r, e, w⟩ := by
  simp [StepInput.sample, StepInput.driven]

@[simp] theorem StepInput.sample_command (w : Cmd) : (StepInput.command w).sample = some ⟨false, true, w⟩ :=
  StepInput.sample_driven false true w

/-- A step's inputs have no value exactly if a bit of them is unknown (R63). -/
theorem StepInput.sample_eq_none {i : StepInput} : i.sample = none ↔ ¬ i.Known := by
  obtain ⟨r, e, c⟩ := i
  have hc := @sampleCmd_eq_none c
  simp only [StepInput.sample, StepInput.Known, Level.Known]
  cases r <;> cases e <;> cases h : sampleCmd c <;> simp_all [Level.value?]

end Sys2Proof.Machine
end

