-- ==== Sys2Proof/Laws/PerInstr.lean ====
section
/-! SUPPORT. Facts of every instruction as syntax, one lemma for each constructor. -/

namespace Sys2Proof.Laws

/-- The instruction's word has the bits its opcode-table row fixes, and no other row's (R25). -/
def TableRow.Statement (i : Instr) : Prop :=
  Cmd.op (encode i) = i.op ∧ ∃ r ∈ opcodeTable, r.mnemonic = i.mnemonic ∧ r.value.extractLsb' 0 2 = i.op

theorem TableRow.encode (x : Source) (b : Word7) : TableRow.Statement (.encode x b) :=
  ⟨Cmd.op_packCmd _ _ _ _, _, .head _, rfl, rfl⟩

theorem TableRow.corrupt (x : Source) (b : Word7) : TableRow.Statement (.corrupt x b) :=
  ⟨Cmd.op_packCmd _ _ _ _, _, .tail _ (.head _), rfl, rfl⟩

theorem TableRow.syndrome (x : Source) (b : Word7) : TableRow.Statement (.syndrome x b) :=
  ⟨Cmd.op_packCmd _ _ _ _, _, .tail _ (.tail _ (.head _)), rfl, rfl⟩

theorem TableRow.decode (x : Source) (b : Word7) : TableRow.Statement (.decode x b) :=
  ⟨Cmd.op_packCmd _ _ _ _, _, .tail _ (.tail _ (.tail _ (.head _))), rfl, rfl⟩

/-- The instruction with its ignored fields 0 is of the assembler's form (R28, R29). -/
def Canonical.Statement (i : Instr) : Prop := i.canonical.wellFormed = true

theorem Canonical.encode (x : Source) (b : Word7) : Canonical.Statement (.encode x b) := by
  cases x with
  | res a => rfl
  | word a =>
    have h : ((a.extractLsb' 0 4).setWidth 7).extractLsb' 4 3 = 0 := by
      ext k hk
      simp
    simp [Canonical.Statement, Instr.canonical, Source.canonicalNibble, Instr.wellFormed, Source.wellFormedNibble, h]

theorem Canonical.corrupt (x : Source) (b : Word7) : Canonical.Statement (.corrupt x b) := by cases x <;> rfl

theorem Canonical.syndrome (x : Source) (b : Word7) : Canonical.Statement (.syndrome x b) := by cases x <;> rfl

theorem Canonical.decode (x : Source) (b : Word7) : Canonical.Statement (.decode x b) := by cases x <;> rfl

end Sys2Proof.Laws
end

