-- ==== Sys2Proof/Laws/Registers.lean ====
section
/-! SUPPORT. R37's step on the two registers, kind by kind. -/

namespace Sys2Proof.Machine

@[simp] theorem Registers.afterStep_reset (q : Registers) (e : Bool) (w : Cmd) :
    q.afterStep ⟨true, e, w⟩ = ⟨0, 0⟩ := rfl

@[simp] theorem Registers.afterStep_idle (q : Registers) (w : Cmd) : q.afterStep ⟨false, false, w⟩ = q := rfl

@[simp] theorem Registers.afterStep_command (q : Registers) (w : Cmd) :
    q.afterStep ⟨false, true, w⟩ = q.afterCommand w := rfl

end Sys2Proof.Machine
end

