-- ==== Sys2Proof/Laws/Step.lean ====
section
/-! SUPPORT. What a step can do (R37), said once. -/

namespace Sys2Proof.Machine

/-- A step on sampled inputs, whatever the registers (R37). -/
theorem step_of_sample {r : Word7} {y : Syn3} {i : StepInput} {rest : List StepInput} {x : Sampled}
    (h : i.sample = some x) :
    step ⟨r, y, i :: rest⟩ =
      if x.rst then .next (State.mk r y rest).resetRegs
      else if x.issue then exec (decode x.cmd) ⟨r, y, rest⟩
      else .next ⟨r, y, rest⟩ := by
  simp [step, h]

/-- A step on inputs with an unknown bit (R63). -/
theorem step_of_no_sample {r : Word7} {y : Syn3} {i : StepInput} {rest : List StepInput} (h : i.sample = none) :
    step ⟨r, y, i :: rest⟩ = .refused .unknownInput := by
  simp [step, h]

/-- Everything a step that answers a next state did: it took the host's first step off the list, and was a reset step, a
command or an idle step. -/
theorem step_next_cases {s t : State} (h : step s = .next t) :
    ∃ i x, s.inputs = i :: t.inputs ∧ i.sample = some x ∧
      ((x.rst = true ∧ t = s.taken.resetRegs) ∨
       (x.rst = false ∧ x.issue = true ∧ exec (decode x.cmd) s.taken = .next t) ∨
       (x.rst = false ∧ x.issue = false ∧ t = s.taken)) := by
  obtain ⟨r, y, ins⟩ := s
  cases ins with
  | nil => cases h
  | cons i rest =>
    cases hx : i.sample with
    | none => rw [step_of_no_sample hx] at h; cases h
    | some x =>
      rw [step_of_sample hx] at h
      refine ⟨i, x, ?_, hx, ?_⟩
      · rcases hr : x.rst <;> rcases he : x.issue <;> simp only [hr, he] at h
        · cases h; rfl
        · rw [exec_inputs h]
        · cases h; rfl
        · cases h; rfl
      · rcases hr : x.rst <;> rcases he : x.issue <;> simp_all

/-- A run of `k + 1` steps is one step and a run of `k`. -/
theorem run_succ_of_next {k : Nat} {s t : State} (h : step s = .next t) : run (k + 1) s = run k t := by
  simp [run, h]

/-- The host's own run of the machine is this one. -/
theorem core_run_eq (k : Nat) (s : State) : Sys2Proof.core.run k s = run k s := by
  induction k generalizing s with
  | zero => rfl
  | succ k ih =>
    cases h : step s with
    | next t =>
      have hc : Sys2Proof.core.step s = .next t := h
      simp only [Host.Core.run, hc, run, h]
      exact ih t
    | fault f => cases f
    | refused r =>
      have hc : Sys2Proof.core.step s = .refused r := h
      simp only [Host.Core.run, hc, run, h]
      rfl

end Sys2Proof.Machine
end

