-- ==== Sys2Proof/Tests/Slice0.lean ====
section
/-! SUPPORT. The model's own tests. Expected values come from spec/95_test_vectors.md (§ named at each) or are written out
from the encodings of R24 and R25; the `witness_` theorems meet the hypotheses of the statements. -/

open Sys2Proof Sys2Proof.Machine

namespace Sys2Proof.Tests

/-- A state with no further steps. -/
def regs (r : Word7) (y : Syn3) : State := ⟨r, y, []⟩

/-- The outputs after a step that answers a next state. -/
def outputsAfter : Host.Outcome State Fault Refusal → Option Outputs
  | .next t => some t.outputs
  | _ => none

/-- The outputs after one command word. -/
def after (r : Word7) (y : Syn3) (w : Nat) : Option Outputs := outputsAfter (step ((regs r y).withFetchWord 17 w))

/-! ### Decoding: words written out as B, A, asel, op (R24, R25) -/

theorem test_decode_encode_word : decodeTableWord 24 0b00000000001101000 = some (.encode (.word 0b0001101#7) 0) := by
  decide
theorem test_decode_encode_ignored_fields :
    decodeTableWord 24 0b10101010001111000 = some (.encode (.word 0b0001111#7) 0b1010101#7) := by decide
theorem test_decode_corrupt_word :
    decodeTableWord 24 0b01101000010010001 = some (.corrupt (.word 0b0010010#7) 0b0110100#7) := by decide
theorem test_decode_corrupt_res : decodeTableWord 24 0b00000011111111101 = some (.corrupt (.res 0x7F#7) 1#7) := by
  decide
theorem test_decode_syndrome_word : decodeTableWord 24 0b00000001000100010 = some (.syndrome (.word 0b1000100#7) 0) := by
  decide
theorem test_decode_decode_res : decodeTableWord 24 0b00000000000000111 = some (.decode (.res 0) 0) := by decide
theorem test_decode_rejects_18_bits : decodeWord 0b100000000000000000 = .error .widerThan17Bits := by rfl
theorem test_encode_corrupt : encode (.corrupt (.res 0) 0b0000100#7) = 0x01005#17 := by decide

/-! ### Well-formedness: one ill-formed command for each check -/

theorem test_wf_accepts : (Instr.encode (.word 0x0F#7) 0).wellFormed = true := by decide
theorem test_wf_refuses_encode_high_bits : (Instr.encode (.word 0x10#7) 0).wellFormed = false := by decide
theorem test_wf_refuses_encode_res_field : (Instr.encode (.res 1) 0).wellFormed = false := by decide
theorem test_wf_refuses_encode_b : (Instr.encode (.word 0) 1).wellFormed = false := by decide
theorem test_wf_refuses_corrupt_res_field : (Instr.corrupt (.res 1) 0).wellFormed = false := by decide
theorem test_wf_refuses_syndrome_res_field : (Instr.syndrome (.res 1) 0).wellFormed = false := by decide
theorem test_wf_refuses_syndrome_b : (Instr.syndrome (.word 0) 1).wellFormed = false := by decide
theorem test_wf_refuses_decode_res_field : (Instr.decode (.res 1) 0).wellFormed = false := by decide
theorem test_wf_refuses_decode_b : (Instr.decode (.word 0) 1).wellFormed = false := by decide

/-! ### One step of each operation (95_test_vectors.md §2) -/

theorem test_encode_ignores_a_high_bits : after 0x2B 5 0x003E8 = some ⟨0x4D, 5, 2, true, 0xD⟩ := by decide
theorem test_encode_res : after 0x49 0 0x00004 = some ⟨0x19, 0, 7, false, 0x9⟩ := by decide
theorem test_corrupt_word : after 0x33 6 0x0D091 = some ⟨0x26, 6, 3, true, 0x6⟩ := by decide
theorem test_corrupt_res_ignores_a : after 0x4D 0 0x007FD = some ⟨0x4C, 0, 7, false, 0xC⟩ := by decide
theorem test_syndrome_word : after 0x4D 0 0x0001A = some ⟨0x4D, 4, 6, true, 0xD⟩ := by decide
theorem test_syndrome_res : after 0x49 0 0x00006 = some ⟨0x49, 5, 2, true, 0x9⟩ := by decide
theorem test_decode_miscorrects_double_error : after 0x03 0 0x00007 = some ⟨0x43, 4, 6, true, 0x3⟩ := by decide
theorem test_decode_zero_is_reset : after 0x6A 1 0x00003 = some ⟨0x00, 0, 7, false, 0x0⟩ := by decide

/-! ### Reset, idle, priority (95_test_vectors.md §2.6), unknown inputs (R63) -/

theorem test_reset_step : outputsAfter (step ⟨0x49, 5, [.driven true false 0]⟩) = some ⟨0x00, 0, 7, false, 0x0⟩ := by
  decide
theorem test_reset_discards_command :
    outputsAfter (step ⟨0x49, 5, [.driven true true 0x00078#17]⟩) = some ⟨0x00, 0, 7, false, 0x0⟩ := by decide
theorem test_idle_step :
    outputsAfter (step ⟨0x49, 5, [.driven false false 0x00007#17]⟩) = some ⟨0x49, 5, 2, true, 0x9⟩ := by decide

/-- Inputs with one unknown line of `cmd`. -/
def oneUnknownLine : StepInput := { StepInput.command 0 with cmd := (driveCmd 0).set 16 .unknown }

theorem test_unknown_line_refused : step ⟨0, 0, [oneUnknownLine]⟩ = .refused .unknownInput := by rfl

/-! ### The assembler (R29, R30; 95_test_vectors.md §3) -/

theorem test_asm_corrupt_line :
    parseLine ['C', 'O', 'R', 'R', 'U', 'P', 'T', ' ', 'R', 'E', 'S', ',', ' ', '#', '0', 'x', '2', '0', ' ', ';', 'x'] =
      .ok (some (.corrupt .res 0x20)) := by rfl
theorem test_asm_two_lines :
    assembleText ['L', 'O', 'A', 'D', ' ', '#', '0', 'x', '1', '9', '\n', 'N', 'O', 'P'] =
      .ok [.command 0x000C9#17, .driven false false 0] := by rfl
theorem test_asm_binary_literal : parseImm? ['#', '0', 'b', '1', '0', '0', '1', '1', '0', '1'] = some 0x4D := by rfl
theorem test_asm_hex_digits : ['0', '9', 'A', 'F', 'a', 'f', 'G', '/'].map literalDigit? =
    [some 0, some 9, some 10, some 15, some 10, some 15, none, none] := by decide
theorem test_asm_too_wide : assemble (.encode (.imm 0x1D)) = .error .immediateTooWide := by rfl
theorem test_asm_rejects_decimal : parseLine ['L', 'O', 'A', 'D', ' ', '#', '5'] = .error .notALine := by rfl

/-! ### Witnesses: a state and operands that meet each statement's hypotheses -/

theorem witness_StepDispatchesAsSpecified :
    ((0x00#7 : Word7) = if (0x1FC00#17 : Cmd).getLsbD 2 then 0x55#7 else (0x1FC00#17 : Cmd).extractLsb' 3 7) ∧
    ((0x55#7 : Word7) = if (0x1FFFF#17 : Cmd).getLsbD 2 then 0x55#7 else (0x1FFFF#17 : Cmd).extractLsb' 3 7) ∧
    ((0x7F#7 : Word7) = (0x1FFFF#17 : Cmd).extractLsb' 10 7) := by decide

theorem witness_StepRunsTheDecodedCommand :
    (StepInput.command 0x1FFFF#17).sample = some ⟨false, true, 0x1FFFF#17⟩ ∧
    decodeTableWord 24 0x1FFFF = some (.decode (.res 0x7F#7) 0x7F#7) ∧
    decodeTableWord 17 0 = some (.encode (.word 0) 0) := by decide

theorem witness_UnknownInputsAreRefused :
    ({ StepInput.command 0 with rst := .unknown } : StepInput).rst = .unknown ∧
    ({ StepInput.command 0 with issue := .unknown } : StepInput).issue = .unknown ∧
    oneUnknownLine.cmd[(16 : Fin 17)] = .unknown ∧ ((driveCmd 0).set 0 .unknown)[(0 : Fin 17)] = .unknown ∧
    ((StepInput.command 0).rst ≠ .unknown ∧ (StepInput.command 0).issue ≠ .unknown ∧
      ∀ k : Fin 17, (StepInput.command 0).cmd[k] ≠ .unknown) := by decide

theorem witness_SyndromeFollowsTheParityChecks : (0x7F#7 : Word7) = Codec.encode 0xF#4 := by decide

theorem witness_EncodeThenDecodeRoundTrips : Source.word 0x0F#7 = .word ((0xF#4 : Nibble).setWidth 7) := by decide

theorem witness_SingleErrorsAreCorrected :
    operandX (.res 0) (regs 0x4C 0) = Codec.encode 0xD#4 ^^^ 1#7 <<< (0 : Fin 7).val ∧
    operandX (.word 0x0D#7) (regs 0 0) = Codec.encode 0xD#4 ^^^ 1#7 <<< (6 : Fin 7).val := by decide

theorem witness_DecodeIsTheNearestCodeword : popcount (Codec.encode 0#4 ^^^ operandX (.word 0x40#7) (regs 0 0)) ≤ 1 := by
  decide

theorem witness_DecodingFailsExactlyBeyondOneError :
    (operandX (.res 0) (regs 0x4E 0) = Codec.encode 0xD#4 ^^^ 0x03#7 ∧ popcount (0x03#7 : Word7) = 2 ∧
      Codec.syndrome 0x03#7 ≠ 0b000#3) ∧
    (operandX (.word 0x32#7) (regs 0 0) = Codec.encode 0xD#4 ^^^ 0x7F#7 ∧ 2 ≤ popcount (0x7F#7 : Word7) ∧
      (0x7F#7 : Word7) ≠ 0 ∧ ∃ d' : Nibble, (0x7F#7 : Word7) = Codec.encode d') ∧
    (operandX (.word 0x4D#7) (regs 0 0) = Codec.encode 0xD#4 ^^^ 0x00#7 ∧ popcount (0x00#7 : Word7) ≤ 1) := by decide

theorem witness_DataBitsAreRecovered :
    operandX (.res 0) (regs 0x4E 0) = Codec.encode 0xD#4 ^^^ 0x03#7 ∧ Codec.decode 0x4E#7 ≠ Codec.encode 0xD#4 := by
  decide

theorem witness_TwoBitErrorsLookLikeOneBitErrors :
    popcount (0x03#7 : Word7) = 2 ∧ operandX (.word 0x4E#7) (regs 0 0) = Codec.encode 0xD#4 ^^^ 0x03#7 ∧
    operandX (.res 0) (regs 0x0D 0) = Codec.encode 0xD#4 ^^^ 0x40#7 ∧
    operandX (.res 0) (regs 0x32 0) = Codec.encode 0xD#4 ^^^ Codec.encode 0xF#4 ∧
    (Codec.encode 0xD#4 ^^^ 0x03#7 = Codec.encode 0xE#4 ^^^ 0x40#7 ∧ popcount (0x40#7 : Word7) = 1 ∧
      operandX (.res 0) (regs 0x4E 0) = Codec.encode 0xE#4 ^^^ 0x40#7) := by decide

theorem witness_EncodeOperation :
    (0x1FFFC#17 : Cmd).extractLsb' 0 2 = 0b00#2 ∧ 0xF ≤ 0xF ∧
    (operandX (.word 0x7D#7) (regs 0 0)).extractLsb' 0 4 = (operandX (.word 0x0D#7) (regs 0 0)).extractLsb' 0 4 := by
  decide

theorem witness_CorruptOperation :
    (0x1FFFD#17 : Cmd).extractLsb' 0 2 = 0b01#2 ∧ 0x7F ≤ 0x7F ∧ 0 ≤ 0x7F ∧
    Codec.syndrome (operandX (.word 0x4D#7) (regs 0 0)) = 0b000#3 ∧ (regs 0x4D 0).res = 0x4D#7 := by decide

theorem witness_SyndromeOperation :
    (0x1FFFE#17 : Cmd).extractLsb' 0 2 = 0b10#2 ∧ 0x7F ≤ 0x7F ∧
    operandX (.res 0) (regs 0x7F 0) = Codec.encode 0xF#4 ∧
    operandX (.word 0x49#7) (regs 0 0) = Codec.encode 0xD#4 ^^^ 0x04#7 ∧ (regs 0x49 0).res = 0x49#7 := by decide

theorem witness_DecodeOperation :
    (0x1FFFF#17 : Cmd).extractLsb' 0 2 = 0b11#2 ∧ 0x7F ≤ 0x7F ∧ operandX (.res 0) (regs 0x7F 0) = Codec.encode 0xF#4 ∧
    (4 ≤ (4 : Fin 7).val ∧ operandX (.word 0x5D#7) (regs 0 0) = Codec.encode 0xD#4 ^^^ 1#7 <<< (4 : Fin 7).val) ∧
    (popcount (0x60#7 : Word7) = 2 ∧ operandX (.word 0x2D#7) (regs 0 0) = Codec.encode 0xD#4 ^^^ 0x60#7) ∧
    (regs 0x49 0).res = 0x49#7 := by decide

theorem witness_EveryCommandWordIsLegal :
    ((0x003E8#17 : Cmd).extractLsb' 0 2 = (0x15468#17 : Cmd).extractLsb' 0 2 ∧
      (0x003E8#17 : Cmd).getLsbD 2 = (0x15468#17 : Cmd).getLsbD 2 ∧ (0x003E8#17 : Cmd).extractLsb' 0 2 = 0b00#2 ∧
      (0x003E8#17 : Cmd).extractLsb' 3 4 = (0x15468#17 : Cmd).extractLsb' 3 4 ∧
      (0x003E8#17 : Cmd).extractLsb' 0 2 ≠ 0b01#2) ∧
    ((0x007FD#17 : Cmd).extractLsb' 0 2 = (0x00405#17 : Cmd).extractLsb' 0 2 ∧
      (0x007FD#17 : Cmd).getLsbD 2 = (0x00405#17 : Cmd).getLsbD 2 ∧ (0x007FD#17 : Cmd).getLsbD 2 = true ∧
      (0x007FD#17 : Cmd).extractLsb' 10 7 = (0x00405#17 : Cmd).extractLsb' 10 7) ∧
    (encode (.encode (.res 0) 0)).getLsbD 2 = true ∧ (encode (.encode (.res 0) 0)).extractLsb' 0 2 = 0b00#2 ∧
    (encode (.encode (.res 0) 0)).extractLsb' 0 2 ≠ 0b01#2 := by decide

theorem witness_EveryCommandWordIsLegal_assembled :
    assemble (.encode .res) = .ok (.issue (.encode (.res 0) 0)) := by rfl

theorem witness_OperandAssembly : (Instr.syndrome (.word 0x7F#7) 0x7F#7).source.asel = false ∧
    (Instr.decode (.word 0) 0).source.asel = false := by decide

theorem witness_OutputsFollowTheRegisters : Codec.syndrome 0x40#7 = (regs 0 4).syn ∧ Codec.syndrome 0x7F#7 = (regs 0 0).syn := by
  decide

theorem witness_NextCommandSeesTheNewResult : (0x00004#17 : Cmd).getLsbD 2 = true ∧ (0x1FFFF#17 : Cmd).getLsbD 2 = true := by
  decide

theorem witness_OnlyTheNamedStepsWrite :
    step ⟨0x49, 0, [.command 0x00007#17]⟩ = .next (regs 0x4D 5) ∧ (regs 0x4D 5).res ≠ 0x49#7 ∧ (regs 0x4D 5).syn ≠ 0 :=
  ⟨by rfl, by decide, by decide⟩

theorem witness_AssemblerEmitsExactlyTheWellFormed : (Instr.corrupt (.word 0x7F#7) 0x7F#7).wellFormed = true := by decide

theorem witness_PseudoInstructions : 0x7F ≤ 0x7F ∧ 0x00 ≤ 0x7F := by decide

theorem witness_BinaryLiteralsAreMostSignificantFirst : [true, false] ≠ [] := by decide

/-- A state whose coming steps are all driven: a reset step and a command. -/
def drivenState : State := ⟨0x55, 6, [.driven true false 0, .command 0x00068#17]⟩

theorem drivenState_Driven : drivenState.Driven := by
  intro i hi
  have hs : i.sample ≠ none := by
    simp only [drivenState, List.mem_cons, List.not_mem_nil, or_false] at hi
    rcases hi with rfl | rfl <;> simp
  by_contra h
  exact hs (StepInput.sample_eq_none.2 h)

theorem witness_DrivenInputsStayDriven :
    drivenState.Driven ∧ step drivenState = .next ⟨0, 0, [.command 0x00068#17]⟩ := ⟨drivenState_Driven, by rfl⟩

theorem witness_RunsFoldTheStepInIssueOrder :
    [StepInput.driven true false 0, .driven false false 0, .command 0x00068#17].map StepInput.sample =
      [⟨true, false, 0⟩, ⟨false, false, 0⟩, ⟨false, true, 0x00068#17⟩].map some ∧
    3 ≤ [StepInput.driven true false 0, .driven false false 0, .command 0x00068#17].length := by decide

theorem witness_PowerUpValuesAreForgotten :
    setsResFirst [.driven false false 0, .command 0x0001A#17, .command 0x00068#17, .command 0x00007#17] = true ∧
    ([.command 0x00068#17, .command 0x00007#17] : List StepInput).any StepInput.setsRes = true ∧
    ([.command 0x00068#17, .command 0x00007#17] : List StepInput).any StepInput.setsSyn = true ∧
    setsResFirst [.command 0x00007#17] = false := by decide

theorem witness_InstancesAreIndependent :
    Bank.step 1 [⟨0, 0, [.command 0x00068#17]⟩, ⟨0x49, 0, [.command 0x00007#17]⟩] =
      .next [⟨0, 0, [.command 0x00068#17]⟩, regs 0x4D 5] ∧
    step ⟨0, 0, [.command 0x00068#17]⟩ = .next (regs 0x4D 0) ∧
    step ⟨0x49, 0, [.command 0x00007#17]⟩ = .next (regs 0x4D 5) := ⟨by rfl, by rfl, by rfl⟩

end Sys2Proof.Tests
end

/-! PROOFS of the state's statements (10_state.md): what the code's functions, the decoder and a command step do, said
once, and from it the four obligations O1, O28, O30 and O40. -/

namespace Sys2Proof

/-- The decoder reads back the instruction whose word it is given (R24, R25). -/
@[simp] theorem decode_encode (i : Instr) : decode (encode i) = i := by
  cases i <;> simp [decode, encode, Instr.op, Instr.source, Instr.fieldB]

end Sys2Proof

namespace Sys2Proof.Machine

/-! ### The code -/

/-- The first four bits of a word are its information bits (R12, R31). -/
theorem getElem_extractLsb'_data (r : Word7) (j : Nat) (hj : j < 4) : (r.extractLsb' 0 4)[j] = r[j] := by
  rw [BitVec.getElem_extractLsb', Nat.zero_add, BitVec.getLsbD_eq_getElem]

/-- The syndrome of a codeword is 000: each parity bit meets its own equation (R32, R34). -/
theorem Codec.syndrome_encode (d : Nibble) : Codec.syndrome (Codec.encode d) = 0 := by
  obtain ⟨e0, e1, e2, e3, e4, e5, e6⟩ := Codec.encode_bits d
  obtain ⟨s0, s1, s2⟩ := Codec.syndrome_bits (Codec.encode d)
  simp only [e0, e1, e2, e3, e4, e5, e6, Bool.xor_self] at s0 s1 s2
  ext j hj
  rw [BitVec.ofNat_eq_ofNat, BitVec.getElem_zero]
  interval_cases j
  · exact s0
  · exact s1
  · exact s2

/-- A word of syndrome 000 is the codeword of its first four bits: each check gives its parity bit (R32, R34). -/
theorem Codec.encode_of_syndrome_eq_zero {r : Word7} (h : Codec.syndrome r = 0) :
    Codec.encode (r.extractLsb' 0 4) = r := by
  obtain ⟨e0, e1, e2, e3, e4, e5, e6⟩ := Codec.encode_bits (r.extractLsb' 0 4)
  obtain ⟨s0, s1, s2⟩ := Codec.syndrome_bits r
  simp only [getElem_extractLsb'_data] at e0 e1 e2 e3 e4 e5 e6
  simp only [h, BitVec.ofNat_eq_ofNat, BitVec.getElem_zero, eq_comm (a := false), bne_eq_false_iff_eq] at s0 s1 s2
  ext j hj
  interval_cases j
  · exact e0
  · exact e1
  · exact e2
  · exact e3
  · exact e4.trans s0
  · exact e5.trans s1
  · exact e6.trans s2

/-- The codewords are exactly the words of syndrome 000 (R42). -/
theorem Codec.syndrome_eq_zero_iff {r : Word7} : Codec.syndrome r = 0 ↔ ∃ d : Nibble, r = Codec.encode d := by
  constructor
  · intro h
    exact ⟨_, (Codec.encode_of_syndrome_eq_zero h).symm⟩
  · rintro ⟨d, rfl⟩
    exact Codec.syndrome_encode d

/-- A word with no information bits has its parity bits for its syndrome (R34), so every syndrome is one of a word. -/
theorem Codec.syndrome_parity_append (y : Syn3) : Codec.syndrome (y ++ 0#4) = y := by
  revert y; decide

theorem Codec.flipMask_seven : Codec.flipMask 7 = 0#7 := rfl

theorem Codec.flipMask_of_ne_seven {k : Syn3} (h : k ≠ 7) : Codec.flipMask k = 1#7 <<< k.toNat := if_neg h

/-! ### The outputs (R10, R11) -/

theorem State.err_eq_true {s : State} : s.err = true ↔ s.syn ≠ 0 := bne_iff_ne

theorem State.err_eq_false {s : State} : s.err = false ↔ s.syn = 0 := bne_eq_false_iff_eq

theorem State.loc_eq_seven {s : State} : s.loc = 7 ↔ s.syn = 0 := Codec.corrTable_eq_seven s.syn

/-- DECODE of a word of syndrome SYN flips what LOC names (R10, R36). -/
theorem State.decode_eq_of_syndrome {s : State} {r : Word7} (h : Codec.syndrome r = s.syn) :
    Codec.decode r = r ^^^ Codec.flipMask s.loc := by
  rw [Codec.decode, h]; rfl

/-! ### Which registers a command writes (R7) -/

/-- A command that the table gives no write of RES keeps it. -/
theorem exec_keeps_res {i : Instr} {s t : State} (hw : writesRes i = false) (h : exec i s = .next t) :
    t.res = s.res := by
  cases i with
  | syndrome x b => rw [exec_syndrome] at h; cases h; rfl
  | encode x b => cases hw
  | corrupt x b => cases hw
  | decode x b => cases hw

/-- A command that the table gives no write of SYN keeps it. -/
theorem exec_keeps_syn {i : Instr} {s t : State} (hw : writesSyn i = false) (h : exec i s = .next t) :
    t.syn = s.syn := by
  cases i with
  | encode x b => rw [exec_encode] at h; cases h; rfl
  | corrupt x b => rw [exec_corrupt] at h; cases h; rfl
  | syndrome x b => cases hw
  | decode x b => cases hw

/-- The words of commands that write RES are all but those of SYNDROME (R25). -/
theorem writesRes_decode {w : Cmd} : writesRes (decode w) = true ↔ Cmd.op w ≠ 0b10#2 := by
  rcases op_cases (Cmd.op w) with h | h | h | h
  · simp [decode_of_op_encode h, h, writesRes]
  · simp [decode_of_op_corrupt h, h, writesRes]
  · simp [decode_of_op_syndrome h, h, writesRes]
  · simp [decode_of_op_decode h, h, writesRes]

/-- The words of commands that write SYN are those of SYNDROME and DECODE (R25). -/
theorem writesSyn_decode {w : Cmd} : writesSyn (decode w) = true ↔ Cmd.op w = 0b10#2 ∨ Cmd.op w = 0b11#2 := by
  rcases op_cases (Cmd.op w) with h | h | h | h
  · simp [decode_of_op_encode h, h, writesSyn]
  · simp [decode_of_op_corrupt h, h, writesSyn]
  · simp [decode_of_op_syndrome h, h, writesSyn]
  · simp [decode_of_op_decode h, h, writesSyn]

/-! ### The step of a command the host places by its instruction -/

/-- A step that presents the word of `i` is the meaning of `i` (R37). -/
theorem step_command_encode (r : Word7) (y : Syn3) (i : Instr) (rest : List StepInput) :
    step ⟨r, y, .command (encode i) :: rest⟩ = exec i ⟨r, y, rest⟩ := by
  simp [step_of_sample (StepInput.sample_command (encode i))]

/-- SYNDROME of a word of syndrome `y`, then CORRUPT of `r` by nothing (the assembler's LOAD, R30): the program that
puts `r` in RES and `y` in SYN. -/
def setRegisters (r : Word7) (y : Syn3) : List StepInput :=
  [.command (encode (.syndrome (.word (y ++ 0#4)) 0)), .command (encode (.corrupt (.word r) 0))]

/-- The program does so from any registers. -/
theorem run_setRegisters (r r₀ : Word7) (y y₀ : Syn3) :
    run (setRegisters r y).length ⟨r₀, y₀, setRegisters r y⟩ = .next ⟨r, y, []⟩ := by
  have hsyn : step ⟨r₀, y₀, setRegisters r y⟩ = .next ⟨r₀, y, (setRegisters r y).tail⟩ := by
    rw [setRegisters, step_command_encode, exec_syndrome, operandX_word, Codec.syndrome_parity_append]; rfl
  have hres : step ⟨r₀, y, (setRegisters r y).tail⟩ = .next ⟨r, y, []⟩ := by
    rw [setRegisters, List.tail_cons, step_command_encode, exec_corrupt, operandX_word]
    simp [State.writeRes]
  calc run (setRegisters r y).length ⟨r₀, y₀, setRegisters r y⟩
    _ = run 1 ⟨r₀, y, (setRegisters r y).tail⟩ := run_succ_of_next hsyn
    _ = run 0 ⟨r, y, []⟩ := run_succ_of_next hres
    _ = .next ⟨r, y, []⟩ := rfl

end Sys2Proof.Machine

/-! ### The obligations -/

namespace Sys2Proof.Proofs

open Sys2Proof.Machine

/-- Settles O30: the step was a reset, an idle step, which keeps both registers, or a command, which keeps those R7's table
does not have it write. -/
theorem onlyTheNamedStepsWrite : Obligations.OnlyTheNamedStepsWrite := by
  unfold Obligations.OnlyTheNamedStepsWrite
  intro s t h
  obtain ⟨i, x, hin, hx, hcases⟩ := step_next_cases h
  refine ⟨i, x, hin, hx, ?_⟩
  obtain ⟨hrst, -⟩ | ⟨-, hissue, hexec⟩ | ⟨-, -, rfl⟩ := hcases
  case inl => exact ⟨fun _ => .inl hrst, fun _ => .inl hrst⟩
  case inr.inl =>
    refine ⟨fun hne => .inr ⟨hissue, writesRes_decode.1 ?_⟩, fun hne => .inr ⟨hissue, writesSyn_decode.1 ?_⟩⟩
    · by_contra hw
      exact hne (exec_keeps_res (s := s.taken) (Bool.eq_false_of_not_eq_true hw) hexec)
    · by_contra hw
      exact hne (exec_keeps_syn (s := s.taken) (Bool.eq_false_of_not_eq_true hw) hexec)
  case inr.inr => exact ⟨fun hne => absurd rfl hne, fun hne => absurd rfl hne⟩

/-- Settles O40, by the program `setRegisters`: two commands reach every pair of values. -/
theorem everyRegisterValueIsReachable : Obligations.EveryRegisterValueIsReachable := by
  unfold Obligations.EveryRegisterValueIsReachable
  intro r y
  exact ⟨setRegisters r y, ⟨r, y, []⟩, run_setRegisters r _ y _, rfl, rfl, rfl⟩

/-- Settles O1: the word 0x00 is the codeword of 0, so DECODE writes it back with its syndrome 000. -/
theorem resetStateIsDecodeOfZero : Obligations.ResetStateIsDecodeOfZero := by
  unfold Obligations.ResetStateIsDecodeOfZero
  have hsyn : Codec.syndrome 0x00#7 = 0 := by decide
  have hdec : Codec.decode 0x00#7 = 0x00#7 := by decide
  refine ⟨rfl, rfl, by decide, by decide, by decide, by decide, hsyn.symm, ?_⟩
  intro s b
  rw [exec_decode, operandX_word, hsyn, hdec]
  rfl

/-- Settles O28: all of it follows from LOC being 7 exactly for SYN 000, the syndrome of the codewords. -/
theorem outputsFollowTheRegisters : Obligations.OutputsFollowTheRegisters := by
  unfold Obligations.OutputsFollowTheRegisters
  intro s
  refine ⟨rfl, ?flip, State.err_eq_true, ?loc, ?codeword, ?dout⟩
  case flip =>
    intro r hr
    rw [State.decode_eq_of_syndrome hr]
    by_cases hloc : s.loc = 7
    · exact .inl ⟨hloc, by rw [hloc, Codec.flipMask_seven, BitVec.xor_zero]⟩
    · exact .inr ⟨hloc, by rw [Codec.flipMask_of_ne_seven hloc]⟩
  case loc => rw [State.err_eq_true, Ne, Ne, State.loc_eq_seven]
  case codeword =>
    intro r hr
    rw [State.err_eq_false, ← hr, Codec.syndrome_eq_zero_iff]
  case dout => exact fun j => getElem_extractLsb'_data s.res j j.isLt

end Sys2Proof.Proofs

/-! PROOFS of the memory's statements (20_memory.md): a step is R37's step on the registers, a run folds it, and a step of
the bank sets one place of the list; from these the obligations O38 and O41. -/

namespace Sys2Proof

/-- The two bits of `op` (R24). -/
theorem Cmd.getLsbD_of_op {w : Cmd} {o : BitVec 2} (h : Cmd.op w = o) : w.getLsbD 1 = o[1] ∧ w.getLsbD 0 = o[0] := by
  subst h
  simp [Cmd.op]

end Sys2Proof

namespace Sys2Proof.Machine

/-! ### The step on the registers alone (R37 to R41) -/

/-- The state with the registers `q` and the coming steps `inputs`. -/
def Registers.state (q : Registers) (inputs : List StepInput) : State := ⟨q.res, q.syn, inputs⟩

/-- The operand a command word names, on given registers (R26). -/
theorem operandX_source_state (q : Registers) (inputs : List StepInput) (w : Cmd) :
    operandX (Cmd.source w) (q.state inputs) = if w.getLsbD 2 then q.res else w.extractLsb' 3 7 :=
  operandX_source w _

/-- A command's meaning is what the pseudocode of R38 to R41 does to the registers, operation by operation. -/
theorem exec_decode_state (q : Registers) (inputs : List StepInput) (w : Cmd) :
    exec (decode w) (q.state inputs) = .next ((q.afterCommand w).state inputs) := by
  rcases op_cases (Cmd.op w) with h | h | h | h
  all_goals
    obtain ⟨h1, h0⟩ := Cmd.getLsbD_of_op h
    rw [Registers.afterCommand, h1, h0]
  · rw [decode_of_op_encode h, exec_encode, operandD_eq, operandX_source_state]; rfl
  · rw [decode_of_op_corrupt h, exec_corrupt, operandX_source_state]; rfl
  · rw [decode_of_op_syndrome h, exec_syndrome, operandX_source_state]; rfl
  · rw [decode_of_op_decode h, exec_decode, operandX_source_state]; rfl

/-- A step on sampled inputs is R37's step on the registers: a reset, an idle step or a command. -/
theorem step_state_of_sample {q : Registers} {i : StepInput} {rest : List StepInput} {x : Sampled}
    (h : i.sample = some x) : step (q.state (i :: rest)) = .next ((q.afterStep x).state rest) := by
  obtain ⟨rst, issue, w⟩ := x
  rw [Registers.state, step_of_sample h]
  cases rst with
  | true => rfl
  | false =>
    cases issue with
    | false => rfl
    | true => exact exec_decode_state q rest w

/-- A run on sampled inputs folds R37's step over them in list order (R20). -/
theorem run_state_of_samples {k : Nat} {program : List StepInput} {sampled : List Sampled} (q : Registers)
    (hs : program.map StepInput.sample = sampled.map some) (hk : k ≤ program.length) :
    run k (q.state program) = .next (((sampled.take k).foldl Registers.afterStep q).state (program.drop k)) := by
  induction k generalizing program sampled q with
  | zero => rfl
  | succ k ih =>
    cases program with
    | nil => cases hk
    | cons i rest =>
      cases sampled with
      | nil => cases hs
      | cons x xs =>
        obtain ⟨hx, hxs⟩ := List.cons.inj hs
        rw [run_succ_of_next (step_state_of_sample hx)]
        exact ih (q.afterStep x) hxs (Nat.le_of_succ_le_succ hk)

/-! ### The bank (R22) -/

/-- A step of instance `k` is that instance's own step, put back in its place. -/
theorem Bank.step_of_next {bank : List State} {k : Nat} {s t : State} (hs : bank[k]? = some s)
    (ht : Machine.step s = .next t) : Bank.step k bank = .next (bank.set k t) := by
  simp [Bank.step, hs, ht]

/-- Everything a step of the bank that answers a next bank did. -/
theorem Bank.step_next_cases {bank bank' : List State} {k : Nat} (h : Bank.step k bank = .next bank') :
    ∃ s t, bank[k]? = some s ∧ Machine.step s = .next t ∧ bank' = bank.set k t := by
  cases hs : bank[k]? with
  | none => simp [Bank.step, hs] at h
  | some s =>
    cases ht : Machine.step s with
    | next t =>
      rw [Bank.step_of_next hs ht] at h
      cases h
      exact ⟨s, t, rfl, ht, rfl⟩
    | fault f => cases f
    | refused r => simp [Bank.step, hs, ht] at h

/-- A step of instance `j` leaves instance `k` to take its own step, in the bank `j` has stepped in. -/
theorem Bank.step_set_of_next {bank : List State} {j k : Nat} {s t : State} (u : State) (hne : j ≠ k)
    (hs : bank[k]? = some s) (ht : Machine.step s = .next t) :
    Bank.step k (bank.set j u) = .next ((bank.set j u).set k t) :=
  Bank.step_of_next ((List.getElem?_set_ne hne).trans hs) ht

end Sys2Proof.Machine

namespace Sys2Proof.Proofs

open Sys2Proof.Machine

/-- Settles O38, by induction on the number of steps. -/
theorem runsFoldTheStepInIssueOrder : Obligations.RunsFoldTheStepInIssueOrder := by
  unfold Obligations.RunsFoldTheStepInIssueOrder
  intro r y program sampled k hs hk
  exact run_state_of_samples ⟨r, y⟩ hs hk

/-- Settles O41: a step of the bank sets one place of the list, and settings of two places commute. -/
theorem instancesAreIndependent : Obligations.InstancesAreIndependent := by
  unfold Obligations.InstancesAreIndependent
  refine ⟨?own, ?steps, ?commute⟩
  case own =>
    intro bank bank' k h
    obtain ⟨s, t, hs, ht, rfl⟩ := Bank.step_next_cases h
    obtain ⟨hlt, -⟩ := List.getElem?_eq_some_iff.1 hs
    exact ⟨List.length_set, fun j hj => List.getElem?_set_ne hj.symm, s, t, hs, ht, List.getElem?_set_self hlt⟩
  case steps => exact fun bank k s t hs ht => ⟨bank.set k t, Bank.step_of_next hs ht⟩
  case commute =>
    intro bank j k sj sk tj tk hne hj hk hsj hsk
    refine ⟨_, _, _, Bank.step_of_next hj hsj, Bank.step_of_next hk hsk, Bank.step_set_of_next tj hne hk hsk, ?_⟩
    rw [List.set_comm tj tk hne]
    exact Bank.step_set_of_next tk hne.symm hj hsj

end Sys2Proof.Proofs

/-! PROOFS of the encoding's statements (30_encoding.md): the command word as its fields, the opcode table's row of a word,
what the ignored fields leave unchanged, and which lines the assembler takes; from these O23 to O27 and O31 to O34. -/

namespace Sys2Proof

/-! ### The command word and its fields (R24) -/

/-- The parts of a concatenation lie in separate bits, so their values add. -/
theorem toNat_append_eq_add {m n : Nat} (x : BitVec m) (y : BitVec n) : (x ++ y).toNat = x.toNat * 2 ^ n + y.toNat := by
  rw [BitVec.toNat_append, ← Nat.shiftLeft_add_eq_or_of_lt y.isLt, Nat.shiftLeft_eq]

/-- The number of a packed word, each field times the weight of its lowest bit (R24). -/
theorem toNat_packCmd (b a : Word7) (s : Bool) (o : BitVec 2) :
    (packCmd b a s o).toNat = b.toNat * 2 ^ 10 + a.toNat * 2 ^ 3 + s.toNat * 2 ^ 2 + o.toNat := by
  simp only [packCmd, toNat_append_eq_add, BitVec.toNat_ofBool]
  omega

/-- A word is its four fields packed: they cover all 17 bits (R24). -/
theorem packCmd_fields (w : Cmd) : packCmd (Cmd.b w) (Cmd.a w) (Cmd.asel w) (Cmd.op w) = w := by
  have hasel : BitVec.ofBool (Cmd.asel w) = w.extractLsb' 2 1 := by
    ext i hi
    obtain rfl : i = 0 := by omega
    simp [Cmd.asel]
  rw [packCmd, hasel, Cmd.b, Cmd.a, Cmd.op,
    BitVec.extractLsb'_append_extractLsb'_eq_extractLsb' (by decide : 10 = 3 + 7),
    BitVec.extractLsb'_append_extractLsb'_eq_extractLsb' (by decide : 3 = 2 + 1),
    BitVec.extractLsb'_append_extractLsb'_eq_extractLsb' (by decide : 2 = 0 + 2)]
  exact BitVec.extractLsb'_eq_self

@[simp] theorem Source.asel_source (w : Cmd) : (Cmd.source w).asel = Cmd.asel w := by
  unfold Cmd.source
  cases Cmd.asel w <;> rfl

@[simp] theorem Source.field_source (w : Cmd) : (Cmd.source w).field = Cmd.a w := by
  unfold Cmd.source
  cases Cmd.asel w <;> rfl

/-- A decoded instruction has the operation and the operands of its word (R25, R26). -/
theorem decode_fields (w : Cmd) :
    (decode w).op = Cmd.op w ∧ (decode w).source = Cmd.source w ∧ (decode w).fieldB = Cmd.b w := by
  rcases op_cases (Cmd.op w) with h | h | h | h
  · rw [decode_of_op_encode h, h]; exact ⟨rfl, rfl, rfl⟩
  · rw [decode_of_op_corrupt h, h]; exact ⟨rfl, rfl, rfl⟩
  · rw [decode_of_op_syndrome h, h]; exact ⟨rfl, rfl, rfl⟩
  · rw [decode_of_op_decode h, h]; exact ⟨rfl, rfl, rfl⟩

@[simp] theorem op_decode (w : Cmd) : (decode w).op = Cmd.op w := (decode_fields w).1

@[simp] theorem source_decode (w : Cmd) : (decode w).source = Cmd.source w := (decode_fields w).2.1

@[simp] theorem fieldB_decode (w : Cmd) : (decode w).fieldB = Cmd.b w := (decode_fields w).2.2

/-- No bit of a word is lost in its instruction (R24, R25). -/
@[simp] theorem encode_decode (w : Cmd) : encode (decode w) = w := by
  simp [encode, packCmd_fields]

/-- The number of a command word is decoded as the word. -/
theorem decodeWord_toNat (w : Cmd) : decodeWord w.toNat = .ok (decode w) := by
  rw [decodeWord, if_pos w.isLt, BitVec.ofNat_toNat, BitVec.setWidth_eq]

/-! ### The opcode table (R25) -/

/-- The table's row of an instruction: its name, and its operation number under the mask of `op`. -/
def Instr.row (i : Instr) : OpcodeRow := ⟨i.mnemonic, 0x00003#17, i.op.setWidth 17⟩

/-- What the rows' mask leaves of a word is its `op` field. -/
theorem Cmd.and_three (w : Cmd) : w &&& 0x00003#17 = (Cmd.op w).setWidth 17 := by
  apply BitVec.eq_of_toNat_eq
  have hmod := Nat.and_two_pow_sub_one_eq_mod w.toNat 2
  simp only [Cmd.op, BitVec.toNat_and, BitVec.toNat_setWidth, BitVec.extractLsb'_toNat, BitVec.toNat_ofNat,
    Nat.shiftRight_zero]
  norm_num at hmod ⊢
  omega

/-- A row of the table takes exactly the words whose `op` field is its value. -/
theorem OpcodeRow.selects_eq {r : OpcodeRow} (hr : r ∈ opcodeTable) (w : Cmd) :
    r.selects w = ((Cmd.op w).setWidth 17 == r.value) := by
  have hmask : ∀ r ∈ opcodeTable, r.mask = 0x00003#17 := by decide
  rw [OpcodeRow.selects, hmask r hr, Cmd.and_three]

/-- The rows that take a word are the one row of its instruction. -/
theorem opcodeTable_filter_selects (w : Cmd) : opcodeTable.filter (·.selects w) = [(decode w).row] := by
  rw [List.filter_congr fun r hr => OpcodeRow.selects_eq hr w, ← op_decode]
  cases decode w <;> rfl

/-- An instruction's operation number and its name go together. -/
theorem Instr.op_mnemonic_cases (i : Instr) :
    (i.op = 0b00#2 ∧ i.mnemonic = "ENCODE") ∨ (i.op = 0b01#2 ∧ i.mnemonic = "CORRUPT") ∨
      (i.op = 0b10#2 ∧ i.mnemonic = "SYNDROME") ∨ (i.op = 0b11#2 ∧ i.mnemonic = "DECODE") := by
  cases i with
  | encode x b => exact .inl ⟨rfl, rfl⟩
  | corrupt x b => exact .inr (.inl ⟨rfl, rfl⟩)
  | syndrome x b => exact .inr (.inr (.inl ⟨rfl, rfl⟩))
  | decode x b => exact .inr (.inr (.inr ⟨rfl, rfl⟩))

/-! ### The ignored fields (R28) -/

/-- The part of field A that ENCODE reads (R27). -/
theorem Cmd.a_low (w : Cmd) : (Cmd.a w).extractLsb' 0 4 = w.extractLsb' 3 4 := by
  ext i hi
  have h7 : i < 7 := by omega
  simp [Cmd.a, h7]

/-- The part of field A that ENCODE ignores (R27). -/
theorem Cmd.a_high (w : Cmd) : (Cmd.a w).extractLsb' 4 3 = w.extractLsb' 7 3 := by
  ext i hi
  have h7 : 4 + i < 7 := by omega
  simp [Cmd.a, h7, ← Nat.add_assoc]

theorem Source.wellFormed_iff {x : Source} : x.wellFormed = true ↔ (x.asel = true → x.field = 0) := by
  cases x <;> simp [Source.wellFormed, Source.asel, Source.field]

theorem Source.wellFormedNibble_iff {x : Source} :
    x.wellFormedNibble = true ↔ (x.asel = true → x.field = 0) ∧ x.field.extractLsb' 4 3 = 0 := by
  cases x with
  | word a => simp [Source.wellFormedNibble, Source.asel, Source.field]
  | res a =>
    simp only [Source.wellFormedNibble, Source.asel, Source.field, beq_iff_eq, forall_const]
    exact ⟨fun ha => ⟨ha, by rw [ha]; rfl⟩, fun h => h.1⟩

/-- Well-formedness, field by field: A for `asel = 1`, `A[6:4]` for ENCODE, B for all but CORRUPT (R28). -/
theorem Instr.wellFormed_iff {i : Instr} :
    i.wellFormed = true ↔ (i.source.asel = true → i.source.field = 0) ∧
      (i.op = 0b00#2 → i.source.field.extractLsb' 4 3 = 0) ∧ (i.op ≠ 0b01#2 → i.fieldB = 0) := by
  cases i with
  | encode x b =>
    simp [Instr.wellFormed, Source.wellFormedNibble_iff, Instr.source, Instr.op, Instr.fieldB, and_assoc]
  | corrupt x b => simp [Instr.wellFormed, Source.wellFormed_iff, Instr.source, Instr.op]
  | syndrome x b => simp [Instr.wellFormed, Source.wellFormed_iff, Instr.source, Instr.op, Instr.fieldB]
  | decode x b => simp [Instr.wellFormed, Source.wellFormed_iff, Instr.source, Instr.op, Instr.fieldB]

end Sys2Proof

namespace Sys2Proof.Machine

/-- Every command has a next state (R28, R48). -/
theorem exec_total (i : Instr) (s : State) : ∃ t, exec i s = .next t := by
  obtain ⟨v, h⟩ | ⟨y, h⟩ | ⟨v, y, h⟩ := exec_cases i s
  · exact ⟨_, h⟩
  · exact ⟨_, h⟩
  · exact ⟨_, h⟩

/-- A step that presents a command word is the meaning of its instruction (R37). -/
theorem step_command (r : Word7) (y : Syn3) (w : Cmd) (rest : List StepInput) :
    step ⟨r, y, .command w :: rest⟩ = exec (decode w) ⟨r, y, rest⟩ := by
  simpa using step_command_encode r y (decode w) rest

/-- The operand depends on `asel`, and on field A only for `asel = 0` (R26). -/
theorem operandX_source_congr {w w' : Cmd} (s : State) (hasel : w.getLsbD 2 = w'.getLsbD 2)
    (ha : w.getLsbD 2 = true ∨ Cmd.a w = Cmd.a w') : operandX (Cmd.source w) s = operandX (Cmd.source w') s := by
  rw [operandX_source, operandX_source, ← hasel]
  rcases ha with h | h
  · rw [if_pos h, if_pos h]
  · exact congrArg _ h

/-- ENCODE's data depends on `asel`, and on `A[3:0]` only for `asel = 0` (R26, R27). -/
theorem operandD_source_congr {w w' : Cmd} (s : State) (hasel : w.getLsbD 2 = w'.getLsbD 2)
    (ha : w.getLsbD 2 = true ∨ w.extractLsb' 3 4 = w'.extractLsb' 3 4) :
    operandD (Cmd.source w) s = operandD (Cmd.source w') s := by
  have hD (v : Cmd) : operandD (Cmd.source v) s = if v.getLsbD 2 then s.res.extractLsb' 0 4 else v.extractLsb' 3 4 := by
    rw [operandD_eq, operandX_source, apply_ite (BitVec.extractLsb' 0 4), ← Cmd.a_low, Cmd.a]
  rw [hD, hD, ← hasel]
  rcases ha with h | h
  · rw [if_pos h, if_pos h]
  · rw [h]

/-- Two words of one operation have the same effect if they agree in the operand's source and in what the operation reads of
fields A and B (R27, R28). -/
theorem exec_decode_congr {w w' : Cmd} (s : State) (hop : Cmd.op w = Cmd.op w') (hasel : w.getLsbD 2 = w'.getLsbD 2)
    (hlow : w.getLsbD 2 = true ∨ w.extractLsb' 3 4 = w'.extractLsb' 3 4)
    (ha : Cmd.op w ≠ 0 → w.getLsbD 2 = true ∨ Cmd.a w = Cmd.a w') (hb : Cmd.op w = 1 → Cmd.b w = Cmd.b w') :
    exec (decode w) s = exec (decode w') s := by
  have hX (hne : Cmd.op w ≠ 0) : operandX (Cmd.source w) s = operandX (Cmd.source w') s :=
    operandX_source_congr s hasel (ha hne)
  rcases op_cases (Cmd.op w) with h | h | h | h <;> have h' := hop.symm.trans h
  · rw [decode_of_op_encode h, decode_of_op_encode h', exec_encode, exec_encode, operandD_source_congr s hasel hlow]
  · rw [decode_of_op_corrupt h, decode_of_op_corrupt h', exec_corrupt, exec_corrupt, hX (by simp [h]), hb h]
  · rw [decode_of_op_syndrome h, decode_of_op_syndrome h', exec_syndrome, exec_syndrome, hX (by simp [h])]
  · rw [decode_of_op_decode h, decode_of_op_decode h', exec_decode, exec_decode, hX (by simp [h])]

/-- With `asel = 0` the operand does not depend on the state (R26). -/
theorem operandX_of_asel_eq_false {x : Source} (h : x.asel = false) (s : State) : operandX x s = x.field := by
  cases x with
  | word a => rfl
  | res a => cases h

/-! ### The assembler's immediates and operands (R29) -/

/-- Every value of a field is that of an immediate. -/
theorem asmImm7_toNat (v : Word7) : asmImm7 v.toNat = .ok v := by
  rw [asmImm7_of_le (by omega), BitVec.ofNat_toNat, BitVec.setWidth_eq]

/-- The values that fit in four bits. -/
theorem extractLsb'_high_eq_zero_iff {a : Word7} : a.extractLsb' 4 3 = 0 ↔ a.toNat ≤ 0xF := by
  revert a; decide

/-- A 4-bit immediate gives exactly the field values whose three high bits are 0. -/
theorem asmImm4_ok_iff {a : Word7} : (∃ n, asmImm4 n = .ok a) ↔ a.extractLsb' 4 3 = 0 := by
  rw [extractLsb'_high_eq_zero_iff]
  constructor
  · rintro ⟨n, hn⟩
    by_cases h : n ≤ 0xF
    · rw [asmImm4_of_le h] at hn
      cases hn
      rw [BitVec.toNat_ofNat]
      omega
    · rw [asmImm4_of_not_le h] at hn
      cases hn
  · intro ha
    exact ⟨a.toNat, by rw [asmImm4_of_le ha, BitVec.ofNat_toNat, BitVec.setWidth_eq]⟩

/-- A mapped result is a value exactly if the result was one. -/
theorem except_map_eq_ok {ε α β : Type} {f : α → β} {r : Except ε α} {b : β} :
    r.map f = .ok b ↔ ∃ a, r = .ok a ∧ f a = b := by
  cases r <;> simp [Except.map]

/-- `<src7>` gives exactly the operands whose ignored field A is 0. -/
theorem asmSrc7_ok_iff {x : Source} : (∃ s, asmSrc7 s = .ok x) ↔ x.wellFormed = true := by
  constructor
  · rintro ⟨s, hs⟩
    cases s with
    | imm v =>
      obtain ⟨a, -, rfl⟩ := except_map_eq_ok.1 hs
      rfl
    | res => cases hs; rfl
  · intro h
    cases x with
    | word a => exact ⟨.imm a.toNat, except_map_eq_ok.2 ⟨a, asmImm7_toNat a, rfl⟩⟩
    | res a =>
      obtain rfl : a = 0 := beq_iff_eq.1 h
      exact ⟨.res, rfl⟩

/-- `<src4>` gives exactly the operands whose ignored bits, `A[6:4]` among them, are 0. -/
theorem asmSrc4_ok_iff {x : Source} : (∃ s, asmSrc4 s = .ok x) ↔ x.wellFormedNibble = true := by
  constructor
  · rintro ⟨s, hs⟩
    cases s with
    | imm v =>
      obtain ⟨a, ha, rfl⟩ := except_map_eq_ok.1 hs
      exact beq_iff_eq.2 (asmImm4_ok_iff.1 ⟨v, ha⟩)
    | res => cases hs; rfl
  · intro h
    cases x with
    | word a =>
      obtain ⟨n, hn⟩ := asmImm4_ok_iff.2 (beq_iff_eq.1 h)
      exact ⟨.imm n, except_map_eq_ok.2 ⟨a, hn, rfl⟩⟩
    | res a =>
      obtain rfl : a = 0 := beq_iff_eq.1 h
      exact ⟨.res, rfl⟩

/-! ### The assembler's lines (R29) -/

/-- A CORRUPT line is a command exactly if both its operands are taken. -/
theorem asmCorrupt_ok_iff {s : AsmSource} {e : Nat} {a : AsmStep} :
    asmCorrupt s e = .ok a ↔ ∃ x b, asmSrc7 s = .ok x ∧ asmImm7 e = .ok b ∧ a = .issue (.corrupt x b) := by
  unfold asmCorrupt
  cases asmSrc7 s <;> cases asmImm7 e <;> simp [eq_comm]

/-- Everything a line that gives a command can be: the operands are taken and field B is 0 but for CORRUPT. -/
theorem assemble_issue_cases {l : AsmLine} {i : Instr} (h : assemble l = .ok (.issue i)) :
    (∃ s x, asmSrc4 s = .ok x ∧ i = .encode x 0) ∨ (∃ s x b, asmSrc7 s = .ok x ∧ i = .corrupt x b) ∨
      (∃ s x, asmSrc7 s = .ok x ∧ i = .syndrome x 0) ∨ ∃ s x, asmSrc7 s = .ok x ∧ i = .decode x 0 := by
  cases l with
  | encode s =>
    obtain ⟨x, hx, hi⟩ := except_map_eq_ok.1 h
    cases hi
    exact .inl ⟨s, x, hx, rfl⟩
  | corrupt s e =>
    obtain ⟨x, b, hx, -, hi⟩ := asmCorrupt_ok_iff.1 h
    cases hi
    exact .inr (.inl ⟨s, x, b, hx, rfl⟩)
  | syndrome s =>
    obtain ⟨x, hx, hi⟩ := except_map_eq_ok.1 h
    cases hi
    exact .inr (.inr (.inl ⟨s, x, hx, rfl⟩))
  | decode s =>
    obtain ⟨x, hx, hi⟩ := except_map_eq_ok.1 h
    cases hi
    exact .inr (.inr (.inr ⟨s, x, hx, rfl⟩))
  | load v =>
    obtain ⟨x, b, hx, -, hi⟩ := asmCorrupt_ok_iff.1 h
    cases hi
    exact .inr (.inl ⟨.imm v, x, b, hx, rfl⟩)
  | nop => cases h
  | reset => cases h

/-- The assembler writes the ignored fields as 0 (R28, R29). -/
theorem wellFormed_of_assemble {l : AsmLine} {i : Instr} (h : assemble l = .ok (.issue i)) : i.wellFormed = true := by
  obtain ⟨s, x, hx, rfl⟩ | ⟨s, x, b, hx, rfl⟩ | ⟨s, x, hx, rfl⟩ | ⟨s, x, hx, rfl⟩ := assemble_issue_cases h
  · simp [Instr.wellFormed, asmSrc4_ok_iff.1 ⟨s, hx⟩]
  · exact asmSrc7_ok_iff.1 ⟨s, hx⟩
  · simp [Instr.wellFormed, asmSrc7_ok_iff.1 ⟨s, hx⟩]
  · simp [Instr.wellFormed, asmSrc7_ok_iff.1 ⟨s, hx⟩]

/-- Every command whose ignored fields are 0 has a line (R29). -/
theorem exists_assemble_of_wellFormed {i : Instr} (h : i.wellFormed = true) : ∃ l, assemble l = .ok (.issue i) := by
  cases i with
  | encode x b =>
    obtain ⟨hx, hb⟩ := Bool.and_eq_true_iff.1 h
    obtain rfl : b = 0 := beq_iff_eq.1 hb
    obtain ⟨s, hs⟩ := asmSrc4_ok_iff.2 hx
    exact ⟨.encode s, except_map_eq_ok.2 ⟨x, hs, rfl⟩⟩
  | corrupt x b =>
    obtain ⟨s, hs⟩ := asmSrc7_ok_iff.2 h
    exact ⟨.corrupt s b.toNat, asmCorrupt_ok_iff.2 ⟨x, b, hs, asmImm7_toNat b, rfl⟩⟩
  | syndrome x b =>
    obtain ⟨hx, hb⟩ := Bool.and_eq_true_iff.1 h
    obtain rfl : b = 0 := beq_iff_eq.1 hb
    obtain ⟨s, hs⟩ := asmSrc7_ok_iff.2 hx
    exact ⟨.syndrome s, except_map_eq_ok.2 ⟨x, hs, rfl⟩⟩
  | decode x b =>
    obtain ⟨hx, hb⟩ := Bool.and_eq_true_iff.1 h
    obtain rfl : b = 0 := beq_iff_eq.1 hb
    obtain ⟨s, hs⟩ := asmSrc7_ok_iff.2 hx
    exact ⟨.decode s, except_map_eq_ok.2 ⟨x, hs, rfl⟩⟩

theorem asmSrc7_imm (n : Nat) : asmSrc7 (.imm n) =
    if n ≤ 0x7F then .ok (.word (BitVec.ofNat 7 n)) else .error .immediateTooWide := by
  rw [asmSrc7, asmImm7, apply_ite (Except.map Source.word)]; rfl

theorem asmSrc4_imm (n : Nat) : asmSrc4 (.imm n) =
    if n ≤ 0xF then .ok (.word (BitVec.ofNat 7 n)) else .error .immediateTooWide := by
  rw [asmSrc4, asmImm4, apply_ite (Except.map Source.word)]; rfl

/-- The digits are shifted in at the low end, from any value before them. -/
theorem digitsFrom?_binary (acc : Nat) (bits : List Bool) :
    digitsFrom? 2 acc (bits.map fun b => if b then '1' else '0') =
      some (bits.foldl (fun n b => 2 * n + b.toNat) acc) := by
  induction bits generalizing acc with
  | nil => rfl
  | cons b bits ih =>
    have hb : b.toNat < 2 := Bool.toNat_lt b
    rw [List.map_cons, digitsFrom?, literalDigit?_binary]
    simp only [hb, if_true, ih, List.foldl_cons, Nat.mul_comm acc 2]

end Sys2Proof.Machine

/-! ### The obligations -/

namespace Sys2Proof.Proofs

open Sys2Proof.Machine

/-- Settles O24: a word is its four fields packed, and each field is read back from a packed word. -/
theorem decodeAndEncodeAreInverse : Obligations.DecodeAndEncodeAreInverse := by
  unfold Obligations.DecodeAndEncodeAreInverse
  refine ⟨decode_encode, encode_decode, ?number, fun i => toNat_packCmd _ _ _ _⟩
  case number =>
    intro i
    rw [decodeWord_toNat, decode_encode]

/-- Settles O23: the meanings read a word only through the operand and CORRUPT's field B, and what the assembler emits is
well-formed. -/
theorem everyCommandWordIsLegal : Obligations.EveryCommandWordIsLegal := by
  unfold Obligations.EveryCommandWordIsLegal
  refine ⟨?executes, ?ignored, ?assembled⟩
  case executes =>
    intro r y rest w
    rw [step_command]
    exact exec_total _ _
  case ignored =>
    intro w w' s hop hasel ha hb
    refine exec_decode_congr s hop hasel ?_ ?_ fun h => hb.resolve_left fun hne => hne h
    · refine ha.imp_right ?_
      rintro (hA | ⟨-, hlow⟩)
      · rw [← Cmd.a_low, ← Cmd.a_low, Cmd.a, hA, Cmd.a]
      · exact hlow
    · exact fun hne => ha.imp_right fun h => h.resolve_right fun hE => hne hE.1
  case assembled =>
    intro l i h
    obtain ⟨hA, hhigh, hB⟩ := Instr.wellFormed_iff.1 (wellFormed_of_assemble h)
    have hop : (encode i).extractLsb' 0 2 = i.op := Cmd.op_packCmd _ _ _ _
    have hasel : (encode i).getLsbD 2 = i.source.asel := Cmd.asel_packCmd _ _ _ _
    have ha : Cmd.a (encode i) = i.source.field := Cmd.a_packCmd _ _ _ _
    have hb : (encode i).extractLsb' 10 7 = i.fieldB := Cmd.b_packCmd _ _ _ _
    rw [hop, hasel, hb, ← Cmd.a_high, ha, ← Cmd.a, ha]
    exact ⟨hA, hhigh, hB⟩

/-- Settles O25: the only row that takes a word is the row of its instruction. -/
theorem opcodeTableIsTotalAndUnambiguous : Obligations.OpcodeTableIsTotalAndUnambiguous := by
  unfold Obligations.OpcodeTableIsTotalAndUnambiguous
  intro w
  have hop : w.extractLsb' 0 2 = (decode w).op := (op_decode w).symm
  rw [hop]
  exact ⟨(decode w).row, opcodeTable_filter_selects w, rfl, (decode w).op_mnemonic_cases⟩

/-- Settles O27: the state enters a command only by its operand, and a literal operand does not read it. -/
theorem operandAssembly : Obligations.OperandAssembly := by
  unfold Obligations.OperandAssembly
  refine ⟨?operand, fun a a' b s => ⟨rfl, rfl, rfl, rfl⟩, ?literal⟩
  case operand =>
    intro w s
    rw [source_decode, operandX_source]
  case literal =>
    intro i s v h
    have hX : operandX i.source { s with res := v } = operandX i.source s := by
      rw [operandX_of_asel_eq_false h, operandX_of_asel_eq_false h]
    cases i with
    | encode x b =>
      refine ⟨_, _, exec_encode x b s, exec_encode x b _, rfl, rfl, .inl ⟨by simp [Instr.op], ?_⟩⟩
      exact congrArg (fun X : Word7 => Codec.encode (X.extractLsb' 0 4)) hX
    | corrupt x b =>
      refine ⟨_, _, exec_corrupt x b s, exec_corrupt x b _, rfl, rfl, .inl ⟨by simp [Instr.op], ?_⟩⟩
      exact congrArg (· ^^^ b) hX
    | syndrome x b =>
      exact ⟨_, _, exec_syndrome x b s, exec_syndrome x b _, congrArg Codec.syndrome hX, rfl, .inr ⟨rfl, rfl, rfl⟩⟩
    | decode x b =>
      refine ⟨_, _, exec_decode x b s, exec_decode x b _, congrArg Codec.syndrome hX, rfl, .inl ⟨by simp [Instr.op], ?_⟩⟩
      exact congrArg Codec.decode hX

/-- Settles O31, form by form, from what the operands answer. -/
theorem assemblerFormsAndRejections : Obligations.AssemblerFormsAndRejections := by
  unfold Obligations.AssemblerFormsAndRejections
  refine ⟨?encode, ?corrupt, ?corruptRes, ?syndrome, ?decode, rfl, rfl, rfl⟩
  case encode =>
    intro n
    rw [assemble, asmSrc4_imm]
    split <;> rfl
  case corrupt =>
    intro n e
    rw [assemble, asmCorrupt, asmSrc7_imm, asmImm7]
    by_cases hn : n ≤ 0x7F <;> by_cases he : e ≤ 0x7F <;> simp [hn, he]
  case corruptRes =>
    intro e
    rw [assemble, asmCorrupt, asmSrc7, asmImm7]
    by_cases he : e ≤ 0x7F <;> simp [he]
  case syndrome =>
    intro n
    rw [assemble, asmSrc7_imm]
    split <;> rfl
  case decode =>
    intro n
    rw [assemble, asmSrc7_imm]
    split <;> rfl

/-- Settles O32: a line's operands are well-formed, and each well-formed operand is written by a line. -/
theorem assemblerEmitsExactlyTheWellFormed : Obligations.AssemblerEmitsExactlyTheWellFormed := by
  unfold Obligations.AssemblerEmitsExactlyTheWellFormed
  exact fun i => ⟨exists_assemble_of_wellFormed, fun ⟨_, h⟩ => wellFormed_of_assemble h⟩

/-- Settles O33: LOAD is CORRUPT by nothing, NOP is an idle step and RESET a reset step. -/
theorem pseudoInstructions : Obligations.PseudoInstructions := by
  unfold Obligations.PseudoInstructions
  refine ⟨fun n => rfl, ?load, ?nop, ?reset⟩
  case load =>
    intro n r y rest hn
    have hsrc : asmSrc7 (.imm n) = .ok (.word (BitVec.ofNat 7 n)) := by rw [asmSrc7_imm, if_pos hn]
    refine ⟨_, asmCorrupt_ok_iff.2 ⟨_, _, hsrc, asmImm7_toNat 0, rfl⟩, ?_⟩
    rw [AsmStep.input, step_command_encode, exec_corrupt, operandX_word, BitVec.ofNat_eq_ofNat, BitVec.xor_zero]
    rfl
  case nop =>
    intro r y rest
    have hs := StepInput.sample_driven false false 0
    exact ⟨_, _, rfl, hs, rfl, rfl, step_of_sample hs⟩
  case reset =>
    intro r y rest
    have hs := StepInput.sample_driven true false 0
    exact ⟨_, _, rfl, hs, rfl, step_of_sample hs⟩

/-- Settles O34, by induction on the digits. -/
theorem binaryLiteralsAreMostSignificantFirst : Obligations.BinaryLiteralsAreMostSignificantFirst := by
  unfold Obligations.BinaryLiteralsAreMostSignificantFirst
  intro bits hne
  cases bits with
  | nil => exact absurd rfl hne
  | cons b bits => exact digitsFrom?_binary 0 (b :: bits)

/-- Settles O26, by evaluating the decoder on each word. -/
theorem specWordsDecode : Obligations.SpecWordsDecode := by
  unfold Obligations.SpecWordsDecode
  exact ⟨rfl, rfl, rfl, rfl, rfl, rfl, rfl⟩

end Sys2Proof.Proofs

/-! PROOFS of the codec's statements (40_codec.md): both maps of the code are linear, so decoding a codeword with an
error is decoding the error, and the errors decoded to 0 are those of weight at most 1. From these and from what a
command step does: O5, O6, O9 to O17 and O19 to O22. -/

namespace Sys2Proof

/-- What the host's decoder reads is the instruction of the low 17 bits that the host places (log 5). -/
theorem decodeTableWord_eq_some {nbits n : Nat} {i : Instr} (h : decodeTableWord nbits n = some i) :
    i = decode (BitVec.ofNat 17 (n % 2 ^ nbits)) := by
  unfold decodeTableWord decodeWord at h
  split at h
  · next j hj =>
    split at hj
    · cases hj; cases h; rfl
    · cases hj
  · cases h

end Sys2Proof

namespace Sys2Proof.Machine

/-! ### Weight and parity (00_scope.md §4, R32) -/

/-- Flipping by `y` adds at most the weight of `y`. -/
theorem popcount_xor_le {w : Nat} (x y : BitVec w) : popcount (x ^^^ y) ≤ popcount x + popcount y := by
  simp only [popcount]
  induction List.range w with
  | nil => rfl
  | cons k ks ih =>
    simp only [List.filter_cons, BitVec.getLsbD_xor]
    cases x.getLsbD k <;> cases y.getLsbD k <;>
      simp only [Bool.xor_false, Bool.xor_true, Bool.not_false, Bool.not_true, Bool.false_eq_true, if_true, if_false,
        List.length_cons] <;> omega

/-- The words of weight at most 1 are 0 and the single bits. -/
theorem popcount_le_one_iff : ∀ e : Word7, popcount e ≤ 1 ↔ e = 0 ∨ ∃ k : Fin 7, e = 1#7 <<< k.val := by decide

/-- A parity is the XOR of the word's bits. -/
theorem parity_eq_foldr_xor {w : Nat} (v : BitVec w) :
    parity v = (List.range w).foldr (fun k p => v.getLsbD k ^^ p) false := by
  simp only [parity, popcount]
  induction List.range w with
  | nil => rfl
  | cons k ks ih =>
    rw [List.foldr_cons, ← ih, List.filter_cons]
    cases v.getLsbD k with
    | false => simp
    | true =>
      rw [if_pos rfl, List.length_cons, Bool.true_xor]
      rcases Nat.mod_two_eq_zero_or_one (ks.filter v.getLsbD).length with h | h <;> simp [Nat.add_mod, h]

/-! ### Linearity (R46) -/

theorem Codec.syndrome_xor (x y : Word7) : Codec.syndrome (x ^^^ y) = Codec.syndrome x ^^^ Codec.syndrome y := by
  obtain ⟨x0, x1, x2⟩ := Codec.syndrome_bits x
  obtain ⟨y0, y1, y2⟩ := Codec.syndrome_bits y
  obtain ⟨s0, s1, s2⟩ := Codec.syndrome_bits (x ^^^ y)
  ext j hj
  rw [BitVec.getElem_xor]
  interval_cases j
  · rw [s0, x0, y0]; simp only [BitVec.getElem_xor, Bool.xor_assoc, Bool.xor_left_comm]
  · rw [s1, x1, y1]; simp only [BitVec.getElem_xor, Bool.xor_assoc, Bool.xor_left_comm]
  · rw [s2, x2, y2]; simp only [BitVec.getElem_xor, Bool.xor_assoc, Bool.xor_left_comm]

/-- The first four bits of a codeword are its data bits (R31). -/
@[simp] theorem Codec.data_encode (d : Nibble) : (Codec.encode d).extractLsb' 0 4 = d := by
  obtain ⟨e0, e1, e2, e3, -, -, -⟩ := Codec.encode_bits d
  ext j hj
  rw [getElem_extractLsb'_data _ _ hj]
  interval_cases j
  · exact e0
  · exact e1
  · exact e2
  · exact e3

/-- A word of syndrome 000 and a codeword are the same exactly if their data bits are (R47). -/
theorem Codec.data_eq_iff {r : Word7} (h : Codec.syndrome r = 0) {d : Nibble} :
    r.extractLsb' 0 4 = d ↔ r = Codec.encode d := by
  constructor
  · rintro rfl
    exact (Codec.encode_of_syndrome_eq_zero h).symm
  · rintro rfl
    exact Codec.data_encode d

theorem data_xor (x y : Word7) : (x ^^^ y).extractLsb' 0 4 = x.extractLsb' 0 4 ^^^ y.extractLsb' 0 4 := by
  ext j hj
  simp

/-- The XOR of two codewords has syndrome 000, so it is the codeword of the XOR of their data. -/
theorem Codec.encode_xor (d d' : Nibble) : Codec.encode (d ^^^ d') = Codec.encode d ^^^ Codec.encode d' := by
  have hsyn : Codec.syndrome (Codec.encode d ^^^ Codec.encode d') = 0 := by
    rw [Codec.syndrome_xor, Codec.syndrome_encode, Codec.syndrome_encode, BitVec.xor_self]; rfl
  refine ((Codec.data_eq_iff hsyn).1 ?_).symm
  rw [data_xor, Codec.data_encode, Codec.data_encode]

/-- The syndrome sees only the error pattern (R46). -/
@[simp] theorem Codec.syndrome_encode_xor (d : Nibble) (e : Word7) :
    Codec.syndrome (Codec.encode d ^^^ e) = Codec.syndrome e := by
  rw [Codec.syndrome_xor, Codec.syndrome_encode]; exact BitVec.zero_xor

/-! ### The correction table and the flip (R35) -/

/-- The word that flips the bit the table names for `y` has the syndrome `y`. -/
theorem Codec.syndrome_flipMask_corrTable : ∀ y : Syn3, Codec.syndrome (Codec.flipMask (Codec.corrTable y)) = y := by
  decide

/-- The table names for a flip's syndrome the bit flipped. -/
theorem Codec.corrTable_syndrome_flipMask : ∀ k : Syn3, Codec.corrTable (Codec.syndrome (Codec.flipMask k)) = k := by
  decide

theorem Codec.flipMask_ofNat : ∀ k : Fin 7, Codec.flipMask (BitVec.ofNat 3 k.val) = 1#7 <<< k.val := by decide

/-- The column of bit `k` is where the table holds `k`. -/
theorem Codec.corrTable_syndrome_shift (k : Fin 7) :
    Codec.corrTable (Codec.syndrome (1#7 <<< k.val)) = BitVec.ofNat 3 k.val := by
  rw [← Codec.flipMask_ofNat, Codec.corrTable_syndrome_flipMask]

theorem Codec.corrTable_bijective : Function.Bijective Codec.corrTable :=
  Function.bijective_iff_has_inverse.2
    ⟨fun k => Codec.syndrome (Codec.flipMask k), Codec.syndrome_flipMask_corrTable, Codec.corrTable_syndrome_flipMask⟩

theorem Codec.syndrome_shift_ne_zero (k : Fin 7) : Codec.syndrome (1#7 <<< k.val) ≠ 0 := by
  revert k; decide

theorem Codec.syndrome_shift_injective {j k : Fin 7}
    (h : Codec.syndrome (1#7 <<< j.val) = Codec.syndrome (1#7 <<< k.val)) : j = k := by
  have hk := congrArg (fun y => (Codec.corrTable y).toNat) h
  simp only [Codec.corrTable_syndrome_shift, BitVec.toNat_ofNat] at hk
  omega

/-- A mask flips one bit, or none for the entry 7. -/
theorem popcount_flipMask : ∀ k : Syn3, popcount (Codec.flipMask k) = if k = 7 then 0 else 1 := by decide

theorem popcount_flipMask_le_one (k : Syn3) : popcount (Codec.flipMask k) ≤ 1 := by
  rw [popcount_flipMask]
  split <;> decide

/-! ### Decoding (R36, R42 to R45) -/

/-- Every decoded word is a codeword: the flip has the syndrome it answers to (R44). -/
@[simp] theorem Codec.syndrome_decode (r : Word7) : Codec.syndrome (Codec.decode r) = 0 := by
  rw [Codec.decode, Codec.syndrome_xor, Codec.syndrome_flipMask_corrTable, BitVec.xor_self]; rfl

/-- A word of syndrome 000 is left alone. -/
theorem Codec.decode_of_syndrome_eq_zero {r : Word7} (h : Codec.syndrome r = 0) : Codec.decode r = r := by
  rw [Codec.decode, h, (Codec.corrTable_eq_seven 0).2 rfl, Codec.flipMask_seven, BitVec.xor_zero]

@[simp] theorem Codec.decode_encode (d : Nibble) : Codec.decode (Codec.encode d) = Codec.encode d :=
  Codec.decode_of_syndrome_eq_zero (Codec.syndrome_encode d)

@[simp] theorem Codec.decode_decode (r : Word7) : Codec.decode (Codec.decode r) = Codec.decode r :=
  Codec.decode_of_syndrome_eq_zero (Codec.syndrome_decode r)

/-- Decoding a codeword with an error is decoding the error (R46). -/
theorem Codec.decode_encode_xor (d : Nibble) (e : Word7) :
    Codec.decode (Codec.encode d ^^^ e) = Codec.encode d ^^^ Codec.decode e := by
  rw [Codec.decode, Codec.syndrome_encode_xor, BitVec.xor_assoc]; rfl

/-- The errors decoded to 0 are those of weight at most 1: they are their own flip. -/
theorem Codec.decode_eq_zero_iff {e : Word7} : Codec.decode e = 0 ↔ popcount e ≤ 1 := by
  constructor
  · intro h
    rw [BitVec.xor_eq_zero_iff.1 h]
    exact popcount_flipMask_le_one _
  · intro h
    obtain rfl | ⟨k, rfl⟩ := (popcount_le_one_iff e).1 h
    · decide
    · rw [Codec.decode, Codec.corrTable_syndrome_shift, Codec.flipMask_ofNat, BitVec.xor_self]; rfl

/-- A codeword with an error is decoded to it exactly for weight at most 1 (R45). -/
theorem Codec.decode_encode_xor_eq_iff {d : Nibble} {e : Word7} :
    Codec.decode (Codec.encode d ^^^ e) = Codec.encode d ↔ popcount e ≤ 1 := by
  rw [Codec.decode_encode_xor, xor_left_eq_self_iff, ← Codec.decode_eq_zero_iff]

/-- A single flip of a codeword is undone (R43). -/
theorem Codec.decode_encode_xor_shift (d : Nibble) (k : Fin 7) :
    Codec.decode (Codec.encode d ^^^ 1#7 <<< k.val) = Codec.encode d :=
  Codec.decode_encode_xor_eq_iff.2 ((popcount_le_one_iff _).2 (.inr ⟨k, rfl⟩))

/-- A word is decoded to the codewords at distance at most 1 (R44). -/
theorem Codec.decode_eq_encode_iff {d : Nibble} {r : Word7} :
    Codec.decode r = Codec.encode d ↔ popcount (Codec.encode d ^^^ r) ≤ 1 := by
  rw [← Codec.decode_encode_xor_eq_iff (d := d), xor_cancel_left]

/-- A decoded word is the codeword of its own data bits (R47). -/
theorem Codec.encode_data_decode (r : Word7) : Codec.encode ((Codec.decode r).extractLsb' 0 4) = Codec.decode r :=
  Codec.encode_of_syndrome_eq_zero (Codec.syndrome_decode r)

/-- The least weight of a nonzero codeword (R45). -/
theorem Codec.three_le_popcount_encode : ∀ d : Nibble, d ≠ 0 → 3 ≤ popcount (Codec.encode d) := by decide

/-- A word of syndrome 000 and weight at least 1 has weight at least 3. -/
theorem Codec.three_le_popcount_of_syndrome_eq_zero {e : Word7} (h : Codec.syndrome e = 0) (hne : e ≠ 0) :
    3 ≤ popcount e := by
  obtain ⟨d, rfl⟩ := Codec.syndrome_eq_zero_iff.1 h
  refine Codec.three_le_popcount_encode d ?_
  rintro rfl
  exact hne rfl

/-- A nibble zero-extended to a word has it for data bits (R27, R29). -/
theorem data_setWidth (d : Nibble) : (d.setWidth 7).extractLsb' 0 4 = d := by
  ext j hj
  rw [getElem_extractLsb'_data _ _ hj, BitVec.getElem_setWidth, BitVec.getLsbD_eq_getElem]

theorem Codec.decode_xor_self (r : Word7) :
    Codec.decode r ^^^ r = Codec.flipMask (Codec.corrTable (Codec.syndrome r)) :=
  xor_xor_cancel_comm _ _

theorem Codec.syndrome_ne_zero_of_popcount_eq_two {e : Word7} (h : popcount e = 2) : Codec.syndrome e ≠ 0 := by
  intro hsyn
  have hne : e ≠ 0 := by rintro rfl; cases h
  have hge := Codec.three_le_popcount_of_syndrome_eq_zero hsyn hne
  omega

/-- A 2-bit error is decoded to a codeword of the least weight: one flip away from weight 2 (R45). -/
theorem Codec.popcount_decode_of_popcount_eq_two {e : Word7} (h : popcount e = 2) :
    popcount (Codec.decode e) = 3 := by
  have hne : Codec.decode e ≠ 0 := by rw [Ne, Codec.decode_eq_zero_iff]; omega
  have hge := Codec.three_le_popcount_of_syndrome_eq_zero (Codec.syndrome_decode e) hne
  have hle : popcount (Codec.decode e) ≤ popcount e + popcount (Codec.flipMask _) := popcount_xor_le _ _
  have hflip := popcount_flipMask_le_one (Codec.corrTable (Codec.syndrome e))
  omega

/-- Each codeword is what 8 of the 128 words are decoded to (R44). -/
theorem Codec.length_filter_decode_eq_encode : ∀ d : Nibble,
    ((List.range 128).filter fun n => Codec.decode (BitVec.ofNat 7 n) = Codec.encode d).length = 8 := by decide

/-- The word of all ones is the codeword of 0xF, so complementing keeps the syndrome (R39). -/
theorem Codec.syndrome_not (r : Word7) : Codec.syndrome (~~~r) = Codec.syndrome r := by
  have hones : ~~~r = Codec.encode 0xF#4 ^^^ r := BitVec.allOnes_xor.symm
  rw [hones, Codec.syndrome_encode_xor]

/-- A flip of a parity bit leaves the data bits alone (R31). -/
theorem data_xor_shift_of_four_le (r : Word7) {k : Fin 7} (hk : 4 ≤ k.val) :
    (r ^^^ 1#7 <<< k.val).extractLsb' 0 4 = r.extractLsb' 0 4 := by
  have hdata : ∀ k : Fin 7, 4 ≤ k.val → (1#7 <<< k.val).extractLsb' 0 4 = 0#4 := by decide
  rw [data_xor, hdata k hk, BitVec.xor_zero]

/-- DECODE flips one bit exactly if its syndrome is not 000 (R41). -/
theorem Codec.popcount_decode_xor_self {r : Word7} :
    popcount (Codec.decode r ^^^ r) = 1 ↔ Codec.syndrome r ≠ 0 := by
  rw [Codec.decode_xor_self, popcount_flipMask, Ne, ← Codec.corrTable_eq_seven]
  split
  next hk => exact iff_of_false zero_ne_one (not_not.2 hk)
  next hk => exact iff_of_true rfl hk

/-- DECODE flips what the table names for the syndrome, if it names a bit (R36). -/
theorem Codec.decode_cases (r : Word7) :
    (Codec.corrTable (Codec.syndrome r) = 7 ∧ Codec.decode r = r) ∨
      (Codec.corrTable (Codec.syndrome r) ≠ 7 ∧
        Codec.decode r = r ^^^ 1#7 <<< (Codec.corrTable (Codec.syndrome r)).toNat) := by
  by_cases hk : Codec.corrTable (Codec.syndrome r) = 7
  · exact .inl ⟨hk, Codec.decode_of_syndrome_eq_zero ((Codec.corrTable_eq_seven _).1 hk)⟩
  · exact .inr ⟨hk, by rw [Codec.decode, Codec.flipMask_of_ne_seven hk]⟩

/-! ### The code by bits (R32, R34) -/

/-- The parity under each mask of R32 is the mask's equation. -/
theorem parity_and_masks_encode (d : Nibble) :
    parity (d &&& 0x7#4) = (d[0] ^^ d[1] ^^ d[2]) ∧ parity (d &&& 0xB#4) = (d[0] ^^ d[1] ^^ d[3]) ∧
    parity (d &&& 0xD#4) = (d[0] ^^ d[2] ^^ d[3]) := by
  refine ⟨?_, ?_, ?_⟩ <;> simp [parity_eq_foldr_xor, List.range_succ, BitVec.getLsbD_eq_getElem]

/-- The parity under each mask of R34 is the mask's equation. -/
theorem parity_and_masks_syndrome (r : Word7) :
    parity (r &&& 0x17#7) = (r[0] ^^ r[1] ^^ r[2] ^^ r[4]) ∧ parity (r &&& 0x2B#7) = (r[0] ^^ r[1] ^^ r[3] ^^ r[5]) ∧
    parity (r &&& 0x4D#7) = (r[0] ^^ r[2] ^^ r[3] ^^ r[6]) := by
  refine ⟨?_, ?_, ?_⟩ <;> simp [parity_eq_foldr_xor, List.range_succ, BitVec.getLsbD_eq_getElem]

/-- A bit of a matrix row that is taken or not. -/
theorem getElem_ite_zero {w : Nat} (b : Bool) (v : BitVec w) (j : Nat) (hj : j < w) :
    (if b then v else 0)[j] = (b && v[j]) := by
  cases b <;> simp

/-- `Encode` as the XOR of the generator's rows (R32). -/
theorem Codec.encode_eq_rows (d : Nibble) :
    Codec.encode d = (if d[0] then 0b1110001#7 else 0) ^^^ (if d[1] then 0b0110010#7 else 0) ^^^
      (if d[2] then 0b1010100#7 else 0) ^^^ (if d[3] then 0b1101000#7 else 0) := by
  obtain ⟨e0, e1, e2, e3, e4, e5, e6⟩ := Codec.encode_bits d
  ext j hj
  simp only [BitVec.getElem_xor, getElem_ite_zero]
  interval_cases j
  · simp [e0]
  · simp [e1]
  · simp [e2]
  · simp [e3]
  · simp [e4]
  · simp [e5]
  · simp [e6]

/-- `Syndrome` as the XOR of the parity-check matrix's columns (R34). -/
theorem Codec.syndrome_eq_columns (r : Word7) :
    Codec.syndrome r = (if r[0] then 0b111#3 else 0) ^^^ (if r[1] then 0b011#3 else 0) ^^^
      (if r[2] then 0b101#3 else 0) ^^^ (if r[3] then 0b110#3 else 0) ^^^ (if r[4] then 0b001#3 else 0) ^^^
      (if r[5] then 0b010#3 else 0) ^^^ (if r[6] then 0b100#3 else 0) := by
  obtain ⟨s0, s1, s2⟩ := Codec.syndrome_bits r
  ext j hj
  simp only [BitVec.getElem_xor, getElem_ite_zero]
  interval_cases j
  · simp [s0]
  · simp [s1]
  · simp [s2]

/-- `Syndrome` as the parity bits expected of the data bits against those received (R34). -/
theorem Codec.syndrome_eq_parity_xor (r : Word7) :
    Codec.syndrome r = (Codec.encode (r.extractLsb' 0 4)).extractLsb' 4 3 ^^^ r.extractLsb' 4 3 := by
  obtain ⟨-, -, -, -, e4, e5, e6⟩ := Codec.encode_bits (r.extractLsb' 0 4)
  obtain ⟨s0, s1, s2⟩ := Codec.syndrome_bits r
  simp only [getElem_extractLsb'_data] at e4 e5 e6
  ext j hj
  simp only [BitVec.getElem_xor, BitVec.getElem_extractLsb']
  interval_cases j
  · simp [s0, e4]
  · simp [s1, e5]
  · simp [s2, e6]

/-- A syndrome's number, bit by bit (R15). -/
theorem toNat_syn3_eq_bits : ∀ y : Syn3, y.toNat = y[0].toNat + 2 * y[1].toNat + 4 * y[2].toNat := by decide

/-! ### The assembler's operation lines (R29) -/

theorem assemble_encode_imm {n : Nat} (h : n ≤ 0xF) :
    assemble (.encode (.imm n)) = .ok (.issue (.encode (.word (BitVec.ofNat 7 n)) 0)) := by
  rw [assemble, asmSrc4_imm, if_pos h]; rfl

theorem assemble_corrupt_of_src {x : AsmSource} {y : Source} {e : Nat} (hx : asmSrc7 x = .ok y) (h : e ≤ 0x7F) :
    assemble (.corrupt x e) = .ok (.issue (.corrupt y (BitVec.ofNat 7 e))) :=
  asmCorrupt_ok_iff.2 ⟨y, _, hx, asmImm7_of_le h, rfl⟩

theorem asmSrc7_imm_of_le {n : Nat} (h : n ≤ 0x7F) : asmSrc7 (.imm n) = .ok (.word (BitVec.ofNat 7 n)) := by
  rw [asmSrc7_imm, if_pos h]

theorem assemble_syndrome_imm {n : Nat} (h : n ≤ 0x7F) :
    assemble (.syndrome (.imm n)) = .ok (.issue (.syndrome (.word (BitVec.ofNat 7 n)) 0)) := by
  rw [assemble, asmSrc7_imm_of_le h]; rfl

theorem assemble_decode_imm {n : Nat} (h : n ≤ 0x7F) :
    assemble (.decode (.imm n)) = .ok (.issue (.decode (.word (BitVec.ofNat 7 n)) 0)) := by
  rw [assemble, asmSrc7_imm_of_le h]; rfl

end Sys2Proof.Machine

/-! ### The obligations -/

namespace Sys2Proof.Proofs

open Sys2Proof.Machine

/-- Settles O5: the step is that of the sampled inputs, and a command's meaning is that of its operation. -/
theorem stepDispatchesAsSpecified : Obligations.StepDispatchesAsSpecified := by
  unfold Obligations.StepDispatchesAsSpecified
  intro r y rest rst issue cmd x b hx hb
  have hX : operandX (Cmd.source cmd) ⟨r, y, rest⟩ = x := (operandX_source cmd _).trans hx.symm
  have hstep := step_of_sample (r := r) (y := y) (rest := rest) (StepInput.sample_driven rst issue cmd)
  refine ⟨?reset, ?idle, ?command⟩
  case reset => rintro rfl; exact hstep
  case idle => rintro rfl rfl; exact hstep
  case command =>
    rintro rfl rfl
    have hexec : step ⟨r, y, .driven false true cmd :: rest⟩ = exec (decode cmd) ⟨r, y, rest⟩ := hstep
    rw [hexec]
    rcases op_cases (Cmd.op cmd) with h | h | h | h
    · exact .inl ⟨h, by rw [decode_of_op_encode h, exec_encode, operandD_eq, hX]; rfl⟩
    · exact .inr (.inl ⟨h, by rw [decode_of_op_corrupt h, exec_corrupt, hX, hb]; rfl⟩)
    · exact .inr (.inr (.inl ⟨h, by rw [decode_of_op_syndrome h, exec_syndrome, hX]; rfl⟩))
    · exact .inr (.inr (.inr ⟨h, by rw [decode_of_op_decode h, exec_decode, hX]; rfl⟩))

/-- Settles O6: driven inputs are sampled as they are, and the word the host places is one the decoder takes. -/
theorem stepRunsTheDecodedCommand : Obligations.StepRunsTheDecodedCommand := by
  unfold Obligations.StepRunsTheDecodedCommand
  refine ⟨?sampled, StepInput.sample_command, ?placed⟩
  case sampled => exact fun r y i rest w h => step_of_sample h
  case placed =>
    intro s nbits n i h
    rw [decodeTableWord_eq_some h]
    exact step_command s.res s.syn _ s.inputs

/-- Settles O9, from the bits of `Encode`. -/
theorem encodeFollowsTheGenerator : Obligations.EncodeFollowsTheGenerator := by
  unfold Obligations.EncodeFollowsTheGenerator
  refine ⟨fun d => ?_, by decide⟩
  obtain ⟨-, -, -, -, e4, e5, e6⟩ := Codec.encode_bits d
  obtain ⟨m0, m1, m2⟩ := parity_and_masks_encode d
  exact ⟨Codec.data_encode d, e4, e5, e6, e4.trans m0.symm, e5.trans m1.symm, e6.trans m2.symm, Codec.encode_eq_rows d⟩

/-- Settles O10, from the bits of `Syndrome`. -/
theorem syndromeFollowsTheParityChecks : Obligations.SyndromeFollowsTheParityChecks := by
  unfold Obligations.SyndromeFollowsTheParityChecks
  intro r
  obtain ⟨s0, s1, s2⟩ := Codec.syndrome_bits r
  obtain ⟨m0, m1, m2⟩ := parity_and_masks_syndrome r
  exact ⟨s0, s1, s2, s0.trans m0.symm, s1.trans m1.symm, s2.trans m2.symm, toNat_syn3_eq_bits _,
    Codec.syndrome_eq_columns r, Codec.syndrome_eq_parity_xor r, fun d h => Codec.syndrome_eq_zero_iff.2 ⟨d, h⟩⟩

/-- Settles O11: the table undoes the syndrome of the flips, entry by entry. -/
theorem correctionTableNamesTheFlippedBit : Obligations.CorrectionTableNamesTheFlippedBit := by
  unfold Obligations.CorrectionTableNamesTheFlippedBit
  exact ⟨rfl, rfl, rfl, rfl, rfl, rfl, rfl, rfl, Codec.corrTable_syndrome_shift, Codec.corrTable_bijective,
    fun j k hne h => hne (Codec.syndrome_shift_injective h), Codec.syndrome_shift_ne_zero,
    Codec.decode_encode_xor_shift, Codec.flipMask_seven, Codec.flipMask_ofNat⟩

/-- Settles O12: codewords have syndrome 000, so DECODE leaves them alone. -/
theorem encodeThenDecodeRoundTrips : Obligations.EncodeThenDecodeRoundTrips := by
  unfold Obligations.EncodeThenDecodeRoundTrips
  refine ⟨fun d => ⟨Codec.syndrome_encode d, Codec.decode_encode d⟩, ?codewords, by decide, ?block⟩
  case codewords =>
    intro r
    simp only [eq_comm (b := r)]
    exact Codec.syndrome_eq_zero_iff
  case block =>
    intro d a b c x s
    have hres : Codec.decode (Codec.encode (operandD x s)) = Codec.encode (operandD x s) := Codec.decode_encode _
    refine ⟨_, _, exec_encode x b s, exec_decode (.res a) c _, hres, Codec.syndrome_encode _, ?_, ?_⟩
    · rw [State.writeBoth_dout, operandX_res, State.writeRes_res, hres, Codec.data_encode, operandD_eq]
    · rintro rfl
      rw [State.writeBoth_res, operandX_res, State.writeRes_res, hres, operandD_eq, operandX_word, data_setWidth]

/-- Settles O13: an error of weight 1 is decoded to 0. -/
theorem singleErrorsAreCorrected : Obligations.SingleErrorsAreCorrected := by
  unfold Obligations.SingleErrorsAreCorrected
  refine ⟨fun d k => ⟨Codec.decode_encode_xor_shift d k, Codec.syndrome_encode_xor d _⟩, ?_⟩
  intro d k x b s hX
  refine ⟨_, exec_decode x b s, ?_⟩
  rw [hX, Codec.decode_encode_xor_shift, Codec.syndrome_encode_xor]
  exact ⟨rfl, rfl, Codec.corrTable_syndrome_shift k, State.err_eq_true.2 (Codec.syndrome_shift_ne_zero k),
    Codec.data_encode d⟩

/-- Settles O14: DECODE answers a codeword, and it answers each that is at distance at most 1. -/
theorem decodeIsTheNearestCodeword : Obligations.DecodeIsTheNearestCodeword := by
  unfold Obligations.DecodeIsTheNearestCodeword
  refine ⟨?nearest, Codec.syndrome_decode, ?sphere, Codec.length_filter_decode_eq_encode⟩
  case nearest =>
    intro x b s
    refine ⟨_, exec_decode x b s, Codec.syndrome_decode _, ?_, fun d hd => (Codec.decode_eq_encode_iff.2 hd).symm⟩
    rw [State.writeBoth_res, Codec.decode_xor_self]
    exact popcount_flipMask_le_one _
  case sphere =>
    intro d r
    obtain ⟨e, rfl⟩ : ∃ e, r = Codec.encode d ^^^ e := ⟨Codec.encode d ^^^ r, (xor_cancel_left _ _).symm⟩
    rw [Codec.decode_encode_xor_eq_iff, popcount_le_one_iff, xor_left_eq_self_iff]
    simp only [BitVec.xor_right_inj]

/-- Settles O15: the decoded error is added to the codeword, and it is 0 exactly for weight at most 1. -/
theorem decodingFailsExactlyBeyondOneError : Obligations.DecodingFailsExactlyBeyondOneError := by
  unfold Obligations.DecodingFailsExactlyBeyondOneError
  refine ⟨?_, by decide⟩
  intro d e x b s hX
  refine ⟨_, exec_decode x b s, ?_⟩
  rw [State.writeBoth_res, hX]
  refine ⟨Codec.decode_encode_xor_eq_iff, ?miscorrected, ?weight2, ?unnoticed⟩
  case miscorrected =>
    intro hw hsyn
    have hk := (Codec.corrTable_eq_seven _).not.2 hsyn
    refine ⟨hk, ?_, ?_, ?_⟩
    · rw [Codec.decode, Codec.syndrome_encode_xor, Codec.flipMask_of_ne_seven hk]
    · exact Codec.syndrome_eq_zero_iff.1 (Codec.syndrome_decode _)
    · rw [Ne, Codec.decode_encode_xor_eq_iff]
      omega
  case weight2 =>
    intro hw
    refine ⟨Codec.syndrome_ne_zero_of_popcount_eq_two hw, ?_⟩
    rw [Codec.decode_encode_xor, xor_xor_cancel_comm]
    exact Codec.popcount_decode_of_popcount_eq_two hw
  case unnoticed =>
    rintro hne ⟨d', rfl⟩
    have hsyn : Codec.syndrome (Codec.encode d ^^^ Codec.encode d') = 0 := by
      rw [Codec.syndrome_encode_xor, Codec.syndrome_encode]
    rw [Codec.decode_of_syndrome_eq_zero hsyn]
    exact ⟨hsyn, State.err_eq_false.2 hsyn, rfl, fun h => hne (xor_left_eq_self_iff.1 h)⟩

/-- Settles O16: `Syndrome` is linear bit by bit, and `Encode` because its words are those of syndrome 000. -/
theorem codeIsLinear : Obligations.CodeIsLinear := by
  unfold Obligations.CodeIsLinear
  exact ⟨Codec.syndrome_xor, Codec.encode_xor, Codec.syndrome_encode_xor⟩

/-- Settles O17: a decoded word is a codeword, so its data bits are `d` exactly if it is the codeword of `d`. -/
theorem dataBitsAreRecovered : Obligations.DataBitsAreRecovered := by
  unfold Obligations.DataBitsAreRecovered
  refine ⟨Codec.data_encode, ?_, Codec.encode_data_decode⟩
  intro d e x b s hX
  have hdata := Codec.data_eq_iff (Codec.syndrome_decode (operandX x s)) (d := d)
  refine ⟨_, exec_decode x b s, ?_, fun hne hd => hne (hdata.1 hd)⟩
  rw [State.writeBoth_dout, hdata, hX, Codec.decode_encode_xor_eq_iff]

/-- Settles O19: ENCODE writes RES only, and a decoded word is the codeword of its own data bits. -/
theorem encodeOperation : Obligations.EncodeOperation := by
  unfold Obligations.EncodeOperation
  refine ⟨?effect, fun w h => decode_of_op_encode h, fun n h => assemble_encode_imm h, rfl, by decide, by decide,
    ?ignored, rfl, ?highBits, ?afterDecode, ?vector⟩
  case effect =>
    intro x b s
    exact ⟨_, exec_encode x b s, rfl, rfl, rfl, rfl, Codec.data_encode _, rfl⟩
  case ignored =>
    intro x x' b b' s h
    rw [exec_encode, exec_encode, operandD_eq, operandD_eq, h]
  case highBits =>
    intro b s
    have hdata : (0x7D#7).extractLsb' 0 4 = 0xD#4 := by decide
    exact ⟨_, exec_encode _ b s, congrArg Codec.encode hdata⟩
  case afterDecode =>
    intro x a b b' s
    exact ⟨_, _, exec_decode x b s, exec_encode (.res a) b' _, Codec.encode_data_decode _⟩
  case vector =>
    intro s
    have hcode : Codec.encode 0xD#4 = 0x4D#7 := by decide
    exact ⟨_, exec_encode _ 0 s, hcode⟩

/-- Settles O20: CORRUPT writes RES only, by an XOR that undoes itself; complementing adds the codeword of 0xF. -/
theorem corruptOperation : Obligations.CorruptOperation := by
  unfold Obligations.CorruptOperation
  refine ⟨?effect, fun w h => decode_of_op_corrupt h,
    fun n e hn he => assemble_corrupt_of_src (asmSrc7_imm_of_le hn) he, fun e he => assemble_corrupt_of_src rfl he,
    ?identity, ?complement, ?twice, ?vector⟩
  case effect =>
    intro x b s
    exact ⟨_, exec_corrupt x b s, rfl, fun k => BitVec.getElem_xor k.isLt, rfl, rfl, rfl, rfl, rfl⟩
  case identity => exact fun x s => ⟨_, exec_corrupt x _ s, BitVec.xor_zero⟩
  case complement =>
    intro x s
    have hnot : operandX x s ^^^ 0x7F#7 = ~~~(operandX x s) := BitVec.xor_allOnes
    refine ⟨_, exec_corrupt x _ s, hnot, fun h => ?_⟩
    rw [State.writeRes_res, hnot, Codec.syndrome_not, h]
  case twice =>
    intro a a' e s
    exact ⟨_, _, exec_corrupt (.res a) e s, rfl, exec_corrupt (.res a') e _, xor_cancel_right _ _⟩
  case vector =>
    intro s h
    refine ⟨_, exec_corrupt (.res 0) _ s, ?_⟩
    rw [State.writeRes_res, operandX_res, h]
    rfl

/-- Settles O21: SYNDROME writes SYN only, and the syndrome sees only the error. -/
theorem syndromeOperation : Obligations.SyndromeOperation := by
  unfold Obligations.SyndromeOperation
  refine ⟨?effect, fun w h => decode_of_op_syndrome h, fun n h => assemble_syndrome_imm h, rfl,
    ?codeword, ?error, ?vector⟩
  case effect =>
    intro x b s
    exact ⟨_, exec_syndrome x b s, rfl, State.err_eq_true, rfl, rfl, rfl, rfl⟩
  case codeword =>
    intro d x b s h
    refine ⟨_, exec_syndrome x b s, ?_⟩
    rw [h, Codec.syndrome_encode]
    exact ⟨rfl, rfl, rfl⟩
  case error =>
    intro d e x b s h
    refine ⟨_, exec_syndrome x b s, ?_⟩
    rw [h, Codec.syndrome_encode_xor, State.writeSyn_syn]
  case vector =>
    intro s h
    refine ⟨_, exec_syndrome (.res 0) 0 s, ?_⟩
    rw [operandX_res, h]
    exact ⟨rfl, rfl, rfl, h⟩

/-- Settles O22: DECODE flips the bit the table names for the syndrome, and what it answers is a codeword. -/
theorem decodeOperation : Obligations.DecodeOperation := by
  unfold Obligations.DecodeOperation
  refine ⟨?effect, fun w h => decode_of_op_decode h, fun n h => assemble_decode_imm h, rfl, ?codeword, ?parityFlip,
    ?weight2, ?twice, ?vector⟩
  case effect =>
    intro x b s
    exact ⟨_, exec_decode x b s, rfl, rfl, State.err_eq_true.trans Codec.popcount_decode_xor_self.symm,
      Codec.decode_cases _, rfl, rfl⟩
  case codeword =>
    intro d x b s h
    refine ⟨_, exec_decode x b s, ?_⟩
    rw [h, Codec.decode_encode, Codec.syndrome_encode]
    exact ⟨rfl, rfl⟩
  case parityFlip =>
    intro d k x b s hk h
    refine ⟨_, exec_decode x b s, ?_⟩
    rw [h, Codec.decode_encode_xor_shift, data_xor_shift_of_four_le _ hk]
    exact ⟨rfl, Codec.data_encode d, Codec.data_encode d⟩
  case weight2 =>
    intro d e x b s hw h
    refine ⟨_, exec_decode x b s, _, (Codec.encode_data_decode _).symm, ?_⟩
    rw [Ne, Codec.data_eq_iff (Codec.syndrome_decode _), h, Codec.decode_encode_xor_eq_iff]
    omega
  case twice =>
    intro x a b b' s
    exact ⟨_, _, exec_decode x b s, exec_decode (.res a) b' _, Codec.decode_decode _, Codec.syndrome_decode _⟩
  case vector =>
    intro s h
    have hdec : Codec.decode 0x49#7 = 0x4D#7 := by decide
    have hdata : (0x4D#7).extractLsb' 0 4 = 0xD#4 := by decide
    refine ⟨_, exec_decode (.res 0) 0 s, ?_⟩
    rw [operandX_res, h, hdec]
    exact ⟨rfl, rfl, rfl, rfl, hdata⟩

end Sys2Proof.Proofs

/-! PROOFS of the exceptions' statements (60_exceptions.md): DECODE takes a 2-bit error for the single bit it flips, and a
run completes exactly if every step of it has a value; from these O18 and O37. -/

namespace Sys2Proof.Machine

/-! ### Errors of one syndrome (R45, R49) -/

/-- DECODE takes a 2-bit error for a 1-bit error: the bit it flips (R45). -/
theorem Codec.popcount_decode_xor_self_of_popcount_eq_two {e : Word7} (h : popcount e = 2) :
    popcount (Codec.decode e ^^^ e) = 1 :=
  Codec.popcount_decode_xor_self.2 (Codec.syndrome_ne_zero_of_popcount_eq_two h)

/-- What DECODE flips has the syndrome it answers to (R36). -/
theorem Codec.syndrome_decode_xor_self (r : Word7) : Codec.syndrome (Codec.decode r ^^^ r) = Codec.syndrome r := by
  rw [Codec.decode_xor_self, Codec.syndrome_flipMask_corrTable]

/-- The five outputs after both registers are written are functions of what is written (R19). -/
theorem State.writeBoth_outputs (s s' : State) (r : Word7) (y : Syn3) :
    (s.writeBoth r y).outputs = (s'.writeBoth r y).outputs := rfl

/-- DECODE of the received word `r`, wherever it is read from (R41). -/
theorem exec_decode_of_operandX {x : Source} {s : State} {r : Word7} (b : Word7) (h : operandX x s = r) :
    exec (.decode x b) s = .next (s.writeBoth (Codec.decode r) (Codec.syndrome r)) := by
  rw [exec_decode, h]

/-! ### Runs on two-valued inputs (R63, R64) -/

/-- A step's inputs are two-valued exactly if they are sampled (R63). -/
theorem StepInput.known_iff_exists_sample {i : StepInput} : i.Known ↔ ∃ x, i.sample = some x := by
  rw [← Option.ne_none_iff_exists', Ne, StepInput.sample_eq_none, not_not]

/-- A run that is refused at its first step is refused (R64). -/
theorem run_succ_of_refused {k : Nat} {s : State} {r : Refusal} (h : step s = .refused r) :
    run (k + 1) s = .refused r := by
  simp [run, h]

/-- The first coming step and the others are driven apart from each other, whatever the registers. -/
theorem Registers.driven_state_cons {i : StepInput} {rest : List StepInput} (q q' : Registers) :
    (q.state (i :: rest)).Driven ↔ i.Known ∧ (q'.state rest).Driven :=
  List.forall_mem_cons

/-- With no step to come there is nothing to run. -/
theorem Registers.safeRun_state_nil (q : Registers) : SafeRun (q.state []) := ⟨_, rfl, rfl⟩

/-- A run whose first step is sampled is safe exactly if the rest of it is, from the registers after that step. -/
theorem Registers.safeRun_state_cons_iff {i : StepInput} {rest : List StepInput} {x : Sampled} (q : Registers)
    (h : i.sample = some x) : SafeRun (q.state (i :: rest)) ↔ SafeRun ((q.afterStep x).state rest) := by
  have hrun : run (rest.length + 1) (q.state (i :: rest)) = run rest.length ((q.afterStep x).state rest) :=
    run_succ_of_next (step_state_of_sample h)
  exact exists_congr fun t => and_congr_left fun _ => Eq.congr_left hrun

/-- A run whose first step has an unknown bit is refused there (R63). -/
theorem Registers.not_safeRun_state_cons {i : StepInput} {rest : List StepInput} (q : Registers)
    (h : i.sample = none) : ¬ SafeRun (q.state (i :: rest)) := by
  rintro ⟨t, hrun, -⟩
  have hstep : step (q.state (i :: rest)) = .refused .unknownInput := step_of_no_sample h
  cases (run_succ_of_refused hstep).symm.trans hrun

/-- From any registers, a program's run is safe exactly if all its inputs are two-valued. -/
theorem Registers.driven_state_iff_safeRun (q : Registers) (program : List StepInput) :
    (q.state program).Driven ↔ SafeRun (q.state program) := by
  induction program generalizing q with
  | nil => exact iff_of_true (List.forall_mem_nil _) q.safeRun_state_nil
  | cons i rest ih =>
    cases hx : i.sample with
    | none =>
      have hunknown : ¬ i.Known := StepInput.sample_eq_none.1 hx
      exact iff_of_false (fun hd => hunknown ((q.driven_state_cons q).1 hd).1) (q.not_safeRun_state_cons hx)
    | some x =>
      have hknown : i.Known := StepInput.known_iff_exists_sample.2 ⟨x, hx⟩
      rw [q.safeRun_state_cons_iff hx, ← ih, q.driven_state_cons (q.afterStep x), and_iff_right hknown]

end Sys2Proof.Machine

namespace Sys2Proof.Proofs

open Sys2Proof.Machine

/-- Settles O18: the other codeword is the one DECODE answers, and the 1-bit error is the flip that leads to it, which has
the syndrome of the 2-bit error. -/
theorem twoBitErrorsLookLikeOneBitErrors : Obligations.TwoBitErrorsLookLikeOneBitErrors := by
  unfold Obligations.TwoBitErrorsLookLikeOneBitErrors
  refine ⟨?otherCodeword, ?sameCodeword, ?codewordError⟩
  case otherCodeword =>
    intro d e hw
    have hcode := Codec.encode_data_decode (Codec.encode d ^^^ e)
    have hword : Codec.encode d ^^^ e =
        Codec.encode ((Codec.decode (Codec.encode d ^^^ e)).extractLsb' 0 4) ^^^ (Codec.decode e ^^^ e) := by
      rw [hcode, Codec.decode_encode_xor, BitVec.xor_assoc, xor_cancel_left]
    refine ⟨_, Codec.decode e ^^^ e, ?_, Codec.popcount_decode_xor_self_of_popcount_eq_two hw, hword, ?_⟩
    · intro hd
      rw [hd, eq_comm, Codec.decode_encode_xor_eq_iff] at hcode
      omega
    · intro x x' b b' s s' hX hX'
      refine ⟨_, _, exec_decode_of_operandX b hX, exec_decode_of_operandX b' (hX'.trans hword.symm),
        State.writeBoth_outputs s s' _ _, State.err_eq_true.2 ?_⟩
      rw [State.writeBoth_syn, Codec.syndrome_encode_xor]
      exact Codec.syndrome_ne_zero_of_popcount_eq_two hw
  case sameCodeword =>
    intro e hw
    refine ⟨Codec.decode e ^^^ e, Codec.popcount_decode_xor_self_of_popcount_eq_two hw, ?_⟩
    intro d x x' b b' s s' hX hX'
    have hsyn := Codec.syndrome_ne_zero_of_popcount_eq_two hw
    refine ⟨_, _, exec_decode_of_operandX b hX, exec_decode_of_operandX b' hX', ?_⟩
    rw [Codec.syndrome_encode_xor, Codec.syndrome_encode_xor, Codec.syndrome_decode_xor_self]
    exact ⟨rfl, rfl, State.err_eq_true.2 hsyn, State.err_eq_true.2 hsyn⟩
  case codewordError =>
    intro d d' x b s hX
    refine ⟨_, exec_decode_of_operandX b hX, State.err_eq_false.2 ?_⟩
    rw [State.writeBoth_syn, Codec.syndrome_encode_xor, Codec.syndrome_encode]

/-- Settles O37, by induction on the steps the host is still to drive. -/
theorem drivenRunsComplete : Obligations.DrivenRunsComplete := by
  unfold Obligations.DrivenRunsComplete
  exact fun s => Registers.driven_state_iff_safeRun ⟨s.res, s.syn⟩ s.inputs

end Sys2Proof.Proofs

/-! PROOFS of the reset's and the hazards' statements (70_reset_and_hazards.md): what a reset step, an idle step and an
undriven step answer, when a step has a value, and that a program which sets RES before it reads it keeps two runs in
agreement on what it has set; from these O2 to O4, O7, O8, O29, O35 and O39. -/

namespace Sys2Proof.Machine

/-! ### The kinds of step (R55, R57, R64) -/

/-- A reset step gives the reset registers, whatever they held and whatever is issued (R55, R56). -/
theorem step_reset (r : Word7) (y : Syn3) (issue : Bool) (w : Cmd) (rest : List StepInput) :
    step ⟨r, y, .driven true issue w :: rest⟩ = .next ⟨0, 0, rest⟩ :=
  step_of_sample (StepInput.sample_driven true issue w)

/-- An idle step only takes itself off the host's list (R57). -/
theorem step_idle (r : Word7) (y : Syn3) (w : Cmd) (rest : List StepInput) :
    step ⟨r, y, .driven false false w :: rest⟩ = .next ⟨r, y, rest⟩ :=
  step_of_sample (StepInput.sample_driven false false w)

/-- There is no step that the host does not drive (R64; log 2). -/
theorem step_undriven (r : Word7) (y : Syn3) : step ⟨r, y, []⟩ = .refused .noStepDriven := rfl

/-! ### Unknown inputs (R63) -/

/-- A step's inputs are two-valued line by line. -/
theorem StepInput.known_iff {i : StepInput} :
    i.Known ↔ i.rst ≠ .unknown ∧ i.issue ≠ .unknown ∧ ∀ k : Fin 17, i.cmd[k] ≠ .unknown := by
  have hlines : (∀ l ∈ i.cmd.toList, l.Known) ↔ ∀ k : Fin 17, i.cmd[k] ≠ .unknown := by
    simp [Level.Known, Vector.mem_toList_iff, Vector.forall_mem_iff_forall_getElem, Fin.forall_iff]
  exact and_congr_right' (and_congr_right' hlines)

/-- A step on two-valued inputs answers a next state (R28, R48). -/
theorem step_total_of_known {i : StepInput} (h : i.Known) (q : Registers) (rest : List StepInput) :
    ∃ t, step (q.state (i :: rest)) = .next t := by
  obtain ⟨x, hx⟩ := StepInput.known_iff_exists_sample.1 h
  exact ⟨_, step_state_of_sample hx⟩

/-! ### A command on RES (R26, R60) -/

/-- With `asel = 1` a command's effect is its operation's function of RES (R26, R38 to R41). -/
theorem exec_decode_of_asel {w : Cmd} (hw : w.getLsbD 2 = true) (s : State) :
    ∃ t, exec (decode w) s = .next t ∧ t.inputs = s.inputs ∧
      ((Cmd.op w = 0b00#2 ∧ t.res = Codec.encode (s.res.extractLsb' 0 4) ∧ t.syn = s.syn) ∨
       (Cmd.op w = 0b01#2 ∧ t.res = s.res ^^^ Cmd.b w ∧ t.syn = s.syn) ∨
       (Cmd.op w = 0b10#2 ∧ t.res = s.res ∧ t.syn = Codec.syndrome s.res) ∨
       (Cmd.op w = 0b11#2 ∧ t.res = Codec.decode s.res ∧ t.syn = Codec.syndrome s.res)) := by
  have hX : operandX (Cmd.source w) s = s.res := by rw [operandX_source, if_pos hw]
  rcases op_cases (Cmd.op w) with h | h | h | h
  · rw [decode_of_op_encode h, exec_encode, operandD_eq, hX]
    exact ⟨_, rfl, rfl, .inl ⟨h, rfl, rfl⟩⟩
  · rw [decode_of_op_corrupt h, exec_corrupt, hX]
    exact ⟨_, rfl, rfl, .inr (.inl ⟨h, rfl, rfl⟩)⟩
  · rw [decode_of_op_syndrome h, exec_syndrome, hX]
    exact ⟨_, rfl, rfl, .inr (.inr (.inl ⟨h, rfl, rfl⟩))⟩
  · rw [decode_of_op_decode h, exec_decode, hX]
    exact ⟨_, rfl, rfl, .inr (.inr (.inr ⟨h, rfl, rfl⟩))⟩

/-- A command step is the pseudocode of R38 to R41 on the registers. -/
theorem step_command_state (q : Registers) (w : Cmd) (rest : List StepInput) :
    step (q.state (.command w :: rest)) = .next ((q.afterCommand w).state rest) :=
  step_state_of_sample (StepInput.sample_command w)

/-! ### Two runs of one program from different registers (R58) -/

/-- Two pairs of registers are the same in each register that has been set since the start. -/
structure Registers.AgreeOnSet (resSet synSet : Bool) (q q' : Registers) : Prop where
  res : resSet = true → q.res = q'.res
  syn : synSet = true → q.syn = q'.syn

theorem StepInput.setsRes_of_sample {i : StepInput} {x : Sampled} (h : i.sample = some x) :
    i.setsRes = (x.rst || x.commands writesRes) := by
  simp [StepInput.setsRes, h]

theorem StepInput.setsSyn_of_sample {i : StepInput} {x : Sampled} (h : i.sample = some x) :
    i.setsSyn = (x.rst || x.commands writesSyn) := by
  simp [StepInput.setsSyn, h]

theorem StepInput.usesRes_of_sample {i : StepInput} {x : Sampled} (h : i.sample = some x) :
    i.usesRes = x.commands readsRes := by
  simp [StepInput.usesRes, h]

/-- The words that read RES are those with `asel = 1` (R26). -/
theorem readsRes_decode (w : Cmd) : readsRes (decode w) = w.getLsbD 2 := by
  rw [readsRes, source_decode, Source.asel_source, Cmd.asel]

/-- A command that reads RES only where it agrees writes the same values on both sides, and keeps what it does not write. -/
theorem Registers.AgreeOnSet.afterCommand {resSet synSet : Bool} {q q' : Registers} (h : q.AgreeOnSet resSet synSet q')
    (w : Cmd) (hread : readsRes (decode w) = true → resSet = true) :
    (q.afterCommand w).AgreeOnSet (resSet || writesRes (decode w)) (synSet || writesSyn (decode w))
      (q'.afterCommand w) := by
  have hX : (if w.getLsbD 2 then q.res else w.extractLsb' 3 7) = if w.getLsbD 2 then q'.res else w.extractLsb' 3 7 := by
    split
    · next hasel => exact h.res (hread ((readsRes_decode w).trans hasel))
    · rfl
  rcases op_cases (Cmd.op w) with ho | ho | ho | ho
  all_goals
    obtain ⟨h1, h0⟩ := Cmd.getLsbD_of_op ho
    rw [Registers.afterCommand, Registers.afterCommand, hX, h1, h0]
  · rw [decode_of_op_encode ho]
    exact ⟨fun _ => rfl, fun hs => h.syn (by simpa [writesSyn] using hs)⟩
  · rw [decode_of_op_corrupt ho]
    exact ⟨fun _ => rfl, fun hs => h.syn (by simpa [writesSyn] using hs)⟩
  · rw [decode_of_op_syndrome ho]
    exact ⟨fun hs => h.res (by simpa [writesRes] using hs), fun _ => rfl⟩
  · exact ⟨fun _ => rfl, fun _ => rfl⟩

/-- A step that reads RES only once it has been set keeps the agreement and extends it to what it sets. -/
theorem Registers.AgreeOnSet.afterStep {resSet synSet : Bool} {q q' : Registers} (h : q.AgreeOnSet resSet synSet q')
    {i : StepInput} {x : Sampled} (hx : i.sample = some x) (hread : i.usesRes = true → resSet = true) :
    (q.afterStep x).AgreeOnSet (resSet || i.setsRes) (synSet || i.setsSyn) (q'.afterStep x) := by
  rw [StepInput.usesRes_of_sample hx] at hread
  rw [StepInput.setsRes_of_sample hx, StepInput.setsSyn_of_sample hx]
  obtain ⟨rst, issue, w⟩ := x
  cases rst with
  | true => exact ⟨fun _ => rfl, fun _ => rfl⟩
  | false =>
    cases issue with
    | false => simpa [Sampled.commands] using h
    | true => exact h.afterCommand w hread

/-- Runs of a program from registers that agree stop alike, or end in agreement on what was set before or by the program,
if RES was set at the start or the program sets it before any read of it (R58). -/
theorem Registers.AgreeOnSet.runs_agree {resSet synSet : Bool} {q q' : Registers} (h : q.AgreeOnSet resSet synSet q') (k : Nat)
    {program : List StepInput} (hset : resSet = true ∨ setsResFirst program = true) :
    (∃ p p' : Registers, run k (q.state program) = .next (p.state (program.drop k)) ∧
      run k (q'.state program) = .next (p'.state (program.drop k)) ∧
      p.AgreeOnSet (resSet || (program.take k).any StepInput.setsRes)
        (synSet || (program.take k).any StepInput.setsSyn) p') ∨
    ∃ f, run k (q.state program) = .refused f ∧ run k (q'.state program) = .refused f := by
  induction k generalizing program resSet synSet q q' with
  | zero => exact .inl ⟨q, q', rfl, rfl, by simpa using h⟩
  | succ k ih =>
    cases program with
    | nil => exact .inr ⟨_, run_succ_of_refused (step_undriven _ _), run_succ_of_refused (step_undriven _ _)⟩
    | cons i rest =>
      cases hx : i.sample with
      | none =>
        exact .inr ⟨_, run_succ_of_refused (step_of_no_sample hx), run_succ_of_refused (step_of_no_sample hx)⟩
      | some x =>
        have hread : i.usesRes = true → resSet = true := by
          intro hu
          simpa [setsResFirst, hu] using hset
        have hrest : (resSet || i.setsRes) = true ∨ setsResFirst rest = true := by
          simp only [setsResFirst, Bool.and_eq_true, Bool.or_eq_true] at hset ⊢
          tauto
        have hrun := ih (h.afterStep hx hread) hrest
        rw [run_succ_of_next (step_state_of_sample hx), run_succ_of_next (step_state_of_sample hx)]
        simpa only [List.take_succ_cons, List.any_cons, List.drop_succ_cons, Bool.or_assoc] using hrun

end Sys2Proof.Machine

/-! ### The obligations -/

namespace Sys2Proof.Proofs

open Sys2Proof.Machine

/-- Settles O35: a step that answers a next state only takes the first step off the host's list. -/
theorem drivenInputsStayDriven : Obligations.DrivenInputsStayDriven := by
  unfold Obligations.DrivenInputsStayDriven
  intro s t hd h
  obtain ⟨i, x, hin, -, -⟩ := step_next_cases h
  rw [State.Driven, hin] at hd
  exact fun j hj => hd j (List.mem_cons_of_mem i hj)

/-- Settles O7: a step's inputs are sampled exactly if every line of them is known. -/
theorem unknownInputsAreRefused : Obligations.UnknownInputsAreRefused := by
  unfold Obligations.UnknownInputsAreRefused
  intro r y i rest
  refine ⟨fun hu => step_of_no_sample (StepInput.sample_eq_none.2 ?_), fun hk => ?_⟩
  · rw [StepInput.known_iff]
    rintro ⟨hrst, hissue, hcmd⟩
    obtain h | h | ⟨k, h⟩ := hu
    · exact hrst h
    · exact hissue h
    · exact hcmd k h
  · exact step_total_of_known (StepInput.known_iff.2 hk) ⟨r, y⟩ rest

/-- Settles O29: the second command's operand is the RES of the state the first left. -/
theorem nextCommandSeesTheNewResult : Obligations.NextCommandSeesTheNewResult := by
  unfold Obligations.NextCommandSeesTheNewResult
  intro r y rest w v hv
  obtain ⟨u, hu, hin, hcases⟩ := exec_decode_of_asel hv ((Registers.afterCommand ⟨r, y⟩ w).state rest)
  exact ⟨_, u, step_command_state ⟨r, y⟩ w _, (step_command _ _ v rest).trans hu, hin, hcases⟩

/-- Settles O39: any two pairs of registers agree on what has been set while nothing has, and each step keeps the
agreement. -/
theorem powerUpValuesAreForgotten : Obligations.PowerUpValuesAreForgotten := by
  unfold Obligations.PowerUpValuesAreForgotten
  refine ⟨?runs, ?reset⟩
  case runs =>
    intro program r r' y y' k hset
    have hstart : Registers.AgreeOnSet false false ⟨r, y⟩ ⟨r', y'⟩ := ⟨nofun, nofun⟩
    refine (hstart.runs_agree k (.inr hset)).imp_left ?_
    rintro ⟨p, p', hp, hp', hagree⟩
    refine ⟨_, _, hp, hp', rfl, fun hres => ?_, fun hsyn => ?_⟩
    · have h : p.res = p'.res := hagree.res hres
      exact ⟨h, congrArg (BitVec.extractLsb' 0 4) h⟩
    · have h : p.syn = p'.syn := hagree.syn hsyn
      exact ⟨h, congrArg Codec.corrTable h, congrArg (· != 0) h⟩
  case reset =>
    intro issue cmd rest j k
    refine ⟨?_, (step_reset _ _ issue cmd rest).trans (step_reset _ _ issue cmd rest).symm⟩
    have hx := StepInput.sample_driven true issue cmd
    simp [setsResFirst, StepInput.usesRes_of_sample hx, StepInput.setsRes_of_sample hx, Sampled.commands]

/-- Settles O2: the reset registers do not depend on the state, `issue` or `cmd`. -/
theorem resetStepClearsRegisters : Obligations.ResetStepClearsRegisters := by
  unfold Obligations.ResetStepClearsRegisters
  intro r y rest issue cmd
  exact ⟨_, step_reset r y issue cmd rest, rfl, rfl, rfl, rfl, rfl, rfl⟩

/-- Settles O3: both steps give the reset registers. -/
theorem resetDiscardsTheCommand : Obligations.ResetDiscardsTheCommand := by
  unfold Obligations.ResetDiscardsTheCommand
  intro r y rest cmd other
  exact ⟨(step_reset r y true cmd rest).trans (step_reset r y false other rest).symm, step_reset r y true cmd rest⟩

/-- Settles O4: the registers are as before, and the views are functions of them. -/
theorem idleStepChangesNothing : Obligations.IdleStepChangesNothing := by
  unfold Obligations.IdleStepChangesNothing
  refine ⟨?idle, .idle, 0, rfl, rfl⟩
  case idle =>
    intro r y rest cmd
    exact ⟨_, step_idle r y cmd rest, rfl, rfl, rfl, rfl, rfl, rfl⟩

/-- Settles O8: the host's list of steps is empty. -/
theorem undrivenStepIsRefused : Obligations.UndrivenStepIsRefused := by
  unfold Obligations.UndrivenStepIsRefused
  exact step_undriven

end Sys2Proof.Proofs

/-! PROOFS of the statement about the state the model starts in (log 1): a state with no coming step has only two-valued
ones; from it O36. -/

namespace Sys2Proof.Machine

/-- The model presents no step at reset (log 1). -/
@[simp] theorem State.reset_inputs : State.reset.inputs = [] := rfl

/-- The invariant of a safe run asks nothing of a state whose list of coming steps is empty (R65). -/
theorem State.driven_of_inputs_eq_nil {s : State} (h : s.inputs = []) : s.Driven := by
  rw [State.Driven, h]
  exact List.forall_mem_nil _

end Sys2Proof.Machine

namespace Sys2Proof.Proofs

open Sys2Proof.Machine

/-- Settles O36: the list of coming steps at reset is empty. -/
theorem resetHasDrivenInputs : Obligations.ResetHasDrivenInputs := by
  unfold Obligations.ResetHasDrivenInputs
  exact State.driven_of_inputs_eq_nil State.reset_inputs

end Sys2Proof.Proofs
